-- ==== Sys2Proof/Config.lean ====
section
/-! DEFINITION. The implementation parameters of 00_scope.md rule R4, and the default settings the spec decides.
Nothing here is a free value: the spec fixes every parameter (W, C, NV are decided in 92_eei_decisions.md D1, D3, D4, D7). -/

namespace Sys2Proof.Config

/-- `W`: bits in one wide register (R4). -/
abbrev W : Nat := 8192

/-- `C`: bits in one chunk (R4). -/
abbrev C : Nat := 64

/-- `N`: chunks in one wide register (R4). -/
abbrev N : Nat := 128

/-- `NV`: number of wide registers (R4, R10). -/
abbrev NV : Nat := 4

/-- `DESCW`: bits in an IndexDescriptor (R4). -/
abbrev DESCW : Nat := 32

/-- `RESW`: bits in the RESULT register (R4, R16). -/
abbrev RESW : Nat := 64

/-- `STW`: bits in the STATUS register (R4, R15). -/
abbrev STW : Nat := 8

/-- `PKTW`: bits in a command packet (R4, R50). -/
abbrev PKTW : Nat := 128

/-- `NMODES`: defined granularity modes, 0 to 11 (R4, R100). -/
abbrev NMODES : Nat := 12

/-- `W/8`: bytes in the byte image of a wide register (R4, R40). -/
abbrev byteCount : Nat := 1024

end Sys2Proof.Config
end

