-- ==== Sys2Proof/Word.lean ====
section
/-! DEFINITION. The widths the machine works in, as core bit vectors. Every value of this hardware is an unsigned
integer (00_scope.md R5); bit 0 is the least significant. -/

namespace Sys2Proof

/-- One byte of the byte image of a wide register (20_memory.md R40). -/
abbrev Byte := BitVec 8

/-- One chunk, C = 64 bits (10_state.md R10). -/
abbrev Chunk := BitVec 64

/-- The content of one wide register, held as one number below 2^W (10_state.md R11: a model may hold a wide register
"either as N chunks or as one natural number below 2^W"). `val` of the spec is `BitVec.toNat`; the chunks are read and
written through Machine/Chunks.lean. -/
abbrev Wide := BitVec 8192

/-- A 32-bit IndexDescriptor, taken exactly as the host gives it (30_encoding.md R52, R54). -/
abbrev Desc := BitVec 32

/-- A command packet, 128 bits (30_encoding.md R50). -/
abbrev Packet := BitVec 128

end Sys2Proof
end

