-- ==== Sys2Proof/Syntax.lean ====
section
/-! DEFINITION. The commands of the engine as data: one constructor of `Instr` per row of spec/opcode_table.json
(30_encoding.md R56), each with exactly the fields the table of R56 gives it. A field R56 marks "-" has no place in the
constructor, so R57 (ignored fields) is settled by the decoder. -/

namespace Sys2Proof

/-- The four wide registers V0 to V3 (10_state.md R10). -/
inductive WReg where
  | v0 | v1 | v2 | v3
deriving DecidableEq, Repr

/-- The twelve granularities of 41_index_codec.md R100, in the order of their mode numbers 0 to 11. Mode numbers 12 to
15 are reserved and are no `Mode`. -/
inductive Mode where
  | bit | nybble | byte | word | dword | qword
  | sub128 | sub256 | sub512 | sub1024 | sub2048 | sub4096
deriving DecidableEq, Repr

/-- The fields of the ENCODE parameter word, DATA bits 38:0 (30_encoding.md R60). DATA bits 63:39 are ignored and have
no place here. -/
structure EncodeParams where
  sign   : BitVec 1
  csel   : BitVec 1
  le     : BitVec 1
  mode   : BitVec 4
  offset : BitVec 32
deriving DecidableEq, Repr

/-- The 14 commands (30_encoding.md R56). -/
inductive Instr where
  /-- INIT rd, value (40_arithmetic.md R71). -/
  | init (rd : WReg) (value : BitVec 64)
  /-- ADD rd, ra, rb (R72). -/
  | add (rd ra rb : WReg)
  /-- SUB rd, ra, rb (R73). -/
  | sub (rd ra rb : WReg)
  /-- MUL rd, ra, rb (R74). -/
  | mul (rd ra rb : WReg)
  /-- DIV rd, ra, rb (R75). -/
  | div (rd ra rb : WReg)
  /-- MOD rd, ra, rb (R76). -/
  | mod (rd ra rb : WReg)
  /-- CMP ra, rb (R77). -/
  | cmp (ra rb : WReg)
  /-- BITLEN ra (R78). -/
  | bitlen (ra : WReg)
  /-- ISZERO ra (R79). -/
  | iszero (ra : WReg)
  /-- ENCODE, parameter word (41_index_codec.md R105). -/
  | encode (p : EncodeParams)
  /-- DECODE desc (R106). -/
  | decode (d : Desc)
  /-- VALIDATE desc (R107). -/
  | validate (d : Desc)
  /-- READ rd, ra, desc (R108). `rd` is used in modes 6 to 11 only. -/
  | read (rd ra : WReg) (d : Desc)
  /-- WRITE rd, ra, desc, value (R111). `ra` is used in modes 6 to 11 only, `value` in modes 0 to 5 only. -/
  | write (rd ra : WReg) (d : Desc) (value : BitVec 64)
deriving DecidableEq, Repr

end Sys2Proof
end

