-- ==== Sys2Proof/Machine/Descriptor.lean ====
section
/-! DEFINITION. The IndexDescriptor (30_encoding.md R54) as the codec reads it: its fields, the granularity functions
(41_index_codec.md R100), and the packing and unpacking words (R60, R61, R105, R106). -/

namespace Sys2Proof

/-- `version(d) = d[31]` (R54). -/
def descVersion (d : Desc) : BitVec 1 := d.extractLsb' 31 1

/-- `mode(d) = d[30:27]` (R54). -/
def descMode (d : Desc) : BitVec 4 := d.extractLsb' 27 4

/-- `reserved(d) = d[26:19]` (R54). -/
def descReserved (d : Desc) : BitVec 8 := d.extractLsb' 19 8

/-- `sign(d) = d[18]` (R54). -/
def descSign (d : Desc) : BitVec 1 := d.extractLsb' 18 1

/-- `csel(d) = d[17]` (R54). -/
def descCsel (d : Desc) : BitVec 1 := d.extractLsb' 17 1

/-- `endian(d) = d[16]` (R54). -/
def descEndian (d : Desc) : BitVec 1 := d.extractLsb' 16 1

/-- `offset(d) = d[15:0]` (R54). -/
def descOffset (d : Desc) : BitVec 16 := d.extractLsb' 0 16

/-- The granularity a 4-bit mode field selects; 12 to 15 are reserved (R100, R102). -/
def Mode.ofField (f : BitVec 4) : Option Mode :=
  match f.toNat with
  | 0 => some .bit
  | 1 => some .nybble
  | 2 => some .byte
  | 3 => some .word
  | 4 => some .dword
  | 5 => some .qword
  | 6 => some .sub128
  | 7 => some .sub256
  | 8 => some .sub512
  | 9 => some .sub1024
  | 10 => some .sub2048
  | 11 => some .sub4096
  | _ => none

/-- The mode number of a granularity, 0 to 11 (R100). -/
def Mode.number : Mode → Nat
  | .bit => 0
  | .nybble => 1
  | .byte => 2
  | .word => 3
  | .dword => 4
  | .qword => 5
  | .sub128 => 6
  | .sub256 => 7
  | .sub512 => 8
  | .sub1024 => 9
  | .sub2048 => 10
  | .sub4096 => 11

/-- `unit_bits(m)`, the table of R100. -/
def Mode.unitBits : Mode → Nat
  | .bit => 1
  | .nybble => 4
  | .byte => 8
  | .word => 16
  | .dword => 32
  | .qword => 64
  | .sub128 => 128
  | .sub256 => 256
  | .sub512 => 512
  | .sub1024 => 1024
  | .sub2048 => 2048
  | .sub4096 => 4096

/-- `unit_count(m)`, the table of R100. -/
def Mode.unitCount : Mode → Nat
  | .bit => 8192
  | .nybble => 2048
  | .byte => 1024
  | .word => 512
  | .dword => 256
  | .qword => 128
  | .sub128 => 64
  | .sub256 => 32
  | .sub512 => 16
  | .sub1024 => 8
  | .sub2048 => 4
  | .sub4096 => 2

/-- Modes 0 to 5: the unit lies inside one chunk (R101, R33). -/
def Mode.isScalar : Mode → Bool
  | .bit | .nybble | .byte | .word | .dword | .qword => true
  | .sub128 | .sub256 | .sub512 | .sub1024 | .sub2048 | .sub4096 => false

/-- `upc(m) = C / unit_bits(m)`, units per chunk; used for modes 0 to 5 (R100). -/
def Mode.upc (m : Mode) : Nat := Config.C / m.unitBits

/-- `cpu(m) = unit_bits(m) / C`, chunks per unit; used for modes 5 to 11 (R100). -/
def Mode.cpu (m : Mode) : Nat := m.unitBits / Config.C

/-- The descriptor ENCODE builds (R105):
`(0 << 31) | (m << 27) | (0 << 19) | (p_sign << 18) | (p_csel << 17) | (p_le << 16) | k`. -/
def packDesc (p : EncodeParams) : Desc :=
  (p.mode.setWidth 32 <<< 27) ||| (p.sign.setWidth 32 <<< 18) ||| (p.csel.setWidth 32 <<< 17)
    ||| (p.le.setWidth 32 <<< 16) ||| p.offset

/-- The DECODE result word (R106, layout of 30_encoding.md R61). -/
def unpackDesc (d : Desc) : BitVec 64 :=
  ((descVersion d).setWidth 64 <<< 24) ||| ((descMode d).setWidth 64 <<< 20) ||| ((descSign d).setWidth 64 <<< 18)
    ||| ((descCsel d).setWidth 64 <<< 17) ||| ((descEndian d).setWidth 64 <<< 16) ||| (descOffset d).setWidth 64

end Sys2Proof
end

