-- ==== Sys2Proof/WellFormed.lean ====
section
/-! DEFINITION. Which instruction terms the assembler of 30_encoding.md R63 writes. The types of Syntax.lean already
bound every field (a register number, a descriptor and a data word are always legal, R51), so the one thing left to
check is R57 and R63: "All unused fields are assembled as 0", where READ and WRITE use a field or not by the mode of
their descriptor. The ENGINE runs every term, well-formed or not (R57): well-formedness is what the encoder and the
assembler owe, not a condition of execution. -/

namespace Sys2Proof

/-- READ of modes 0 to 5 has `rd` = 0 (R63: "`READ Va, desc` (modes 0 to 5)": "`rd` = 0"). -/
def readFieldsCanonical (rd : WReg) (d : Desc) : Bool :=
  match Mode.ofField (descMode d) with
  | some m => !m.isScalar || rd == .v0
  | none => true

/-- WRITE of modes 0 to 5 has `ra` = 0, of modes 6 to 11 has DATA = 0 (R63). -/
def writeFieldsCanonical (ra : WReg) (d : Desc) (value : BitVec 64) : Bool :=
  match Mode.ofField (descMode d) with
  | some m => if m.isScalar then ra == .v0 else value == 0
  | none => true

/-- The instruction is one the assembler writes (R57, R63). -/
def Instr.wellFormed : Instr → Bool
  | .init _ _ => true
  | .add _ _ _ => true
  | .sub _ _ _ => true
  | .mul _ _ _ => true
  | .div _ _ _ => true
  | .mod _ _ _ => true
  | .cmp _ _ => true
  | .bitlen _ => true
  | .iszero _ => true
  | .encode _ => true
  | .decode _ => true
  | .validate _ => true
  | .read rd _ d => readFieldsCanonical rd d
  | .write _ ra d value => writeFieldsCanonical ra d value

/-- As a proposition, for statements. -/
abbrev WellFormed (i : Instr) : Prop := i.wellFormed = true

end Sys2Proof
end

