-- ==== Sys2Proof/Decode.lean ====
section
/-! DEFINITION. From a 128-bit command packet to an instruction, total over all 2^128 packets (30_encoding.md R50 to
R60), and back. A packet that spells no command is rejected by name; the engine answers both names with
InvalidCommand (R58). -/

namespace Sys2Proof

/-! ### The parts of a packet (R50, R51) -/

/-- DATA, packet bits 127:64. -/
def packetData (p : Packet) : BitVec 64 := p.extractLsb' 64 64

/-- DESC, packet bits 63:32: "packet bit 32 + k is descriptor bit k" (R52). -/
def packetDesc (p : Packet) : Desc := p.extractLsb' 32 32

/-- CW, packet bits 31:0. -/
def packetCw (p : Packet) : BitVec 32 := p.extractLsb' 0 32

/-- `opcode`, CW bits 7:0. -/
def packetOpcode (p : Packet) : BitVec 8 := p.extractLsb' 0 8

/-- `rd`, CW bits 9:8. -/
def packetRd (p : Packet) : BitVec 2 := p.extractLsb' 8 2

/-- `ra`, CW bits 11:10. -/
def packetRa (p : Packet) : BitVec 2 := p.extractLsb' 10 2

/-- `rb`, CW bits 13:12. -/
def packetRb (p : Packet) : BitVec 2 := p.extractLsb' 12 2

/-- `rsv`, CW bits 31:14; must be 0 (R58). -/
def packetRsv (p : Packet) : BitVec 18 := p.extractLsb' 14 18

/-! ### Register numbers (R10, R51) -/

/-- Every 2-bit register number is legal (R51). -/
def WReg.ofNumber (n : BitVec 2) : WReg :=
  match n.toNat with
  | 0 => .v0
  | 1 => .v1
  | 2 => .v2
  | _ => .v3

/-- The 2-bit number of a register. -/
def WReg.number : WReg → BitVec 2
  | .v0 => 0
  | .v1 => 1
  | .v2 => 2
  | .v3 => 3

/-! ### The opcode map (R56) -/

/-- The commands' names, without their operands. -/
inductive Opcode where
  | init | add | sub | mul | div | mod | cmp | bitlen | iszero | encode | decode | validate | read | write
deriving DecidableEq, Repr

/-- The opcode numbers of R56. -/
def Opcode.number : Opcode → BitVec 8
  | .init => 0x01
  | .add => 0x10
  | .sub => 0x11
  | .mul => 0x12
  | .div => 0x13
  | .mod => 0x14
  | .cmp => 0x15
  | .bitlen => 0x16
  | .iszero => 0x17
  | .encode => 0x20
  | .decode => 0x21
  | .validate => 0x22
  | .read => 0x23
  | .write => 0x24

/-- The 14 rows of the map. -/
def Opcode.all : List Opcode :=
  [.init, .add, .sub, .mul, .div, .mod, .cmp, .bitlen, .iszero, .encode, .decode, .validate, .read, .write]

/-- The command an opcode field selects, if it is one of the 14 values of R56. -/
def opcodeOf (n : BitVec 8) : Option Opcode := Opcode.all.find? fun op => op.number == n

/-- The `mask` of every row of spec/opcode_table.json: `opcode` and `rsv` (R56). -/
def opcodeMask : BitVec 32 := 0xFFFFC0FF

/-! ### Decoding -/

/-- Why a packet spells no command (R58); both are answered with InvalidCommand. -/
inductive DecodeError where
  /-- `rsv` (CW bits 31:14) is not 0; tested "whatever the opcode". -/
  | reservedBits
  /-- `opcode` is not one of the 14 values of R56. -/
  | undefinedOpcode
deriving DecidableEq, Repr

/-- The ENCODE parameter word (R60): p_offset 31:0, p_mode 35:32, p_le 36, p_csel 37, p_sign 38, the rest ignored. -/
def encodeParams (data : BitVec 64) : EncodeParams where
  sign := data.extractLsb' 38 1
  csel := data.extractLsb' 37 1
  le := data.extractLsb' 36 1
  mode := data.extractLsb' 32 4
  offset := data.extractLsb' 0 32

/-- The operands the table of R56 gives each command; the fields marked "-" are ignored (R57). -/
def operands (op : Opcode) (p : Packet) : Instr :=
  let rd := WReg.ofNumber (packetRd p)
  let ra := WReg.ofNumber (packetRa p)
  let rb := WReg.ofNumber (packetRb p)
  match op with
  | .init => .init rd (packetData p)
  | .add => .add rd ra rb
  | .sub => .sub rd ra rb
  | .mul => .mul rd ra rb
  | .div => .div rd ra rb
  | .mod => .mod rd ra rb
  | .cmp => .cmp ra rb
  | .bitlen => .bitlen ra
  | .iszero => .iszero ra
  | .encode => .encode (encodeParams (packetData p))
  | .decode => .decode (packetDesc p)
  | .validate => .validate (packetDesc p)
  | .read => .read rd ra (packetDesc p)
  | .write => .write rd ra (packetDesc p) (packetData p)

/-- Decoding, total (R56 to R58). -/
def decode (p : Packet) : Except DecodeError Instr :=
  if packetRsv p = 0 then
    match opcodeOf (packetOpcode p) with
    | some op => .ok (operands op p)
    | none => .error .undefinedOpcode
  else .error .reservedBits

/-! ### Encoding -/

/-- A packet from its fields: `DATA ‖ DESC ‖ rsv = 0 ‖ rb ‖ ra ‖ rd ‖ opcode` (R50, R51). -/
def mkPacket (op : Opcode) (rd ra rb : WReg) (desc : Desc) (data : BitVec 64) : Packet :=
  (data.setWidth 128 <<< 64) ||| (desc.setWidth 128 <<< 32) ||| (rb.number.setWidth 128 <<< 12)
    ||| (ra.number.setWidth 128 <<< 10) ||| (rd.number.setWidth 128 <<< 8) ||| op.number.setWidth 128

/-- The parameter word of R60, with the ignored bits 63:39 zero. -/
def encodeWord (p : EncodeParams) : BitVec 64 :=
  (p.sign.setWidth 64 <<< 38) ||| (p.csel.setWidth 64 <<< 37) ||| (p.le.setWidth 64 <<< 36)
    ||| (p.mode.setWidth 64 <<< 32) ||| p.offset.setWidth 64

/-- The command of an instruction. -/
def Instr.opcode : Instr → Opcode
  | .init _ _ => .init
  | .add _ _ _ => .add
  | .sub _ _ _ => .sub
  | .mul _ _ _ => .mul
  | .div _ _ _ => .div
  | .mod _ _ _ => .mod
  | .cmp _ _ => .cmp
  | .bitlen _ => .bitlen
  | .iszero _ => .iszero
  | .encode _ => .encode
  | .decode _ => .decode
  | .validate _ => .validate
  | .read _ _ _ => .read
  | .write _ _ _ _ => .write

/-- The packet the assembler writes for an instruction, 0 in every ignored field (R57, R63). -/
def encode : Instr → Packet
  | .init rd v => mkPacket .init rd .v0 .v0 0 v
  | .add rd ra rb => mkPacket .add rd ra rb 0 0
  | .sub rd ra rb => mkPacket .sub rd ra rb 0 0
  | .mul rd ra rb => mkPacket .mul rd ra rb 0 0
  | .div rd ra rb => mkPacket .div rd ra rb 0 0
  | .mod rd ra rb => mkPacket .mod rd ra rb 0 0
  | .cmp ra rb => mkPacket .cmp .v0 ra rb 0 0
  | .bitlen ra => mkPacket .bitlen .v0 ra .v0 0 0
  | .iszero ra => mkPacket .iszero .v0 ra .v0 0 0
  | .encode p => mkPacket .encode .v0 .v0 .v0 0 (encodeWord p)
  | .decode d => mkPacket .decode .v0 .v0 .v0 d 0
  | .validate d => mkPacket .validate .v0 .v0 .v0 d 0
  | .read rd ra d => mkPacket .read rd ra .v0 d 0
  | .write rd ra d v => mkPacket .write rd ra .v0 d v

/-! ### The host's numbering of an opcode-table row -/

/-- The packet whose low `nbits` bits are `w` and whose other bits are 0. The table numbers bits as the packet does:
bit 0 is CW bit 0 (R50). -/
def tablePacket (nbits w : Nat) : Packet := BitVec.ofNat 128 (w % 2 ^ nbits)

/-- What the decoder reads from a table word; none where it refuses. -/
def decodeTableWord (nbits w : Nat) : Option Instr :=
  match decode (tablePacket nbits w) with
  | .ok i => some i
  | .error _ => none

end Sys2Proof
end

