-- ==== Sys2Proof/Machine/Chunks.lean ====
section
/-! DEFINITION. A wide register as a sequence of N = 128 chunks of C = 64 bits, chunk 0 least significant
(10_state.md R10, R11; 20_memory.md R31). The one place where chunk order is decided. -/

namespace Sys2Proof.Machine

/-- `V[r].w[i]`: bits 64*i + 63 down to 64*i of the value (R31). Chunk numbers of 128 and above read as 0; no command
uses one (20_memory.md R38). -/
def chunk (x : Wide) (i : Nat) : Chunk := x.extractLsb' (64 * i) 64

/-- `Σ_{i=0}^{n-1} w[i] * 2^(C*i)` (R11). -/
def sumChunks (w : Nat → Chunk) : Nat → Nat
  | 0 => 0
  | n + 1 => sumChunks w n + (w n).toNat * 2 ^ (64 * n)

/-- The register whose chunk i is `w i`, for i in 0 to 127. -/
def ofChunks (w : Nat → Chunk) : Wide := BitVec.ofNat 8192 (sumChunks w 128)

/-- `V[r].w[i] <- c`: one chunk replaced, the others kept (00_scope.md R6). -/
def setChunk (x : Wide) (i : Nat) (c : Chunk) : Wide := ofChunks fun j => if j = i then c else chunk x j

/-- `V[r] <- x` for an integer `0 <= x < 2^W` (R6). -/
def ofValue (x : Nat) : Wide := BitVec.ofNat 8192 x

end Sys2Proof.Machine
end

