-- ==== Sys2Proof/Machine/State.lean ====
section
/-! DEFINITION. The machine's state, as 10_state.md R10 to R23 gives it, and the reasons a step could stop. -/

namespace Sys2Proof.Machine

/-- The error kinds a command can raise (60_exceptions.md R130). Ok is no error kind; the numbers are in
`ErrorKind.code` (Machine/Flags.lean). -/
inductive ErrorKind where
  /-- "result does not fit in W bits": ADD, MUL. -/
  | overflow
  /-- "whole-value divisor is zero": DIV, MOD. -/
  | divisionByZero
  /-- "encode given an offset that does not fit its mode", or a reserved mode: ENCODE. -/
  | invalidArgument
  /-- "descriptor offset fails validation", or reserved bits, or a reserved mode: VALIDATE, READ, WRITE. -/
  | outOfRange
  /-- "non-zero version bit": VALIDATE, READ, WRITE. -/
  | unsupportedVersion
  /-- The packet spells no command (30_encoding.md R58). -/
  | invalidCommand
deriving DecidableEq, Repr

/-- One sample of the input ports the host drives (10_state.md R22): `rst`, `cmd_valid`, `cmd`. -/
structure PortIn where
  rst      : Bool
  cmdValid : Bool
  cmd      : Packet
deriving DecidableEq, Repr

/-- The whole state. The first six fields are "the complete state of the engine" (10_state.md R21); `taken` and
`rspValid` are the handshake of 70_reset_and_hazards.md R154; `host` is the model's own field (log entry 2). -/
structure State where
  /-- V0 (R10). -/
  v0       : Wide
  /-- V1 (R10). -/
  v1       : Wide
  /-- V2 (R10). -/
  v2       : Wide
  /-- V3 (R10). -/
  v3       : Wide
  /-- STATUS, 8 bits (R15). -/
  status   : BitVec 8
  /-- RESULT, 64 bits (R16). -/
  result   : BitVec 64
  /-- The command taken and not yet ended: "The engine holds at most one command; there is no queue" (R154).
  The port `cmd_ready` is 1 exactly when there is none. -/
  taken    : Option Packet
  /-- The port `rsp_valid` (R22, R154). -/
  rspValid : Bool
  /-- What the host drives on the input ports, at this step first; past the end it drives nothing. An input of the
  machine held as plain data, not state of the engine (log entry 2). -/
  host     : List PortIn
deriving DecidableEq, Repr

/-- Reasons a step ends in a fault. NONE: "The engine cannot hang, deadlock or wait for anything but the next command"
(70_reset_and_hazards.md R156), and a failing command is an error kind in STATUS after which the machine goes on
(60_exceptions.md R133). No constructor, so no one raises one; safe. -/
inductive Fault where
deriving DecidableEq, Repr

/-- Reasons the model gives a command no meaning. -/
inductive Refusal where
  /-- Raised by an arm of exec for a command the model has not reached; safe (it only stops). No arm raises it. -/
  | notModelled (mnemonic : String)
deriving DecidableEq, Repr

/-- The state right after reset: every chunk of V0 to V3 is 0, STATUS = 0, RESULT = 0 (10_state.md R23); the engine is
idle, `cmd_ready` = 1 and `rsp_valid` = 0 (70_reset_and_hazards.md R150). The host drives nothing (log entry 2). -/
def State.reset : State where
  v0 := 0
  v1 := 0
  v2 := 0
  v3 := 0
  status := 0
  result := 0
  taken := none
  rspValid := false
  host := []

end Sys2Proof.Machine
end

