-- ==== Sys2Proof/Machine/Flags.lean ====
section
/-! DEFINITION. There is no flag register (10_state.md R18): the carry of ADD and the borrow of SUB exist only inside
one command, and the outcome of a comparison is a value in RESULT. This file holds those inner quantities and the
numbers of the status and result codes. -/

namespace Sys2Proof.Machine

/-- The status codes of the error kinds (60_exceptions.md R130). -/
def ErrorKind.code : ErrorKind → BitVec 8
  | .overflow => 1
  | .divisionByZero => 2
  | .invalidArgument => 3
  | .outOfRange => 4
  | .unsupportedVersion => 5
  | .invalidCommand => 6

/-- The code of Ok (R130). -/
def okCode : BitVec 8 := 0

/-- The loop of ADD (40_arithmetic.md R72) over chunks 0 to n-1: the value of the chunks `t[0..n-1]` stored so far, and
the carry into chunk n. At each chunk `s = a[i] + b[i] + carry`, `t[i] = s mod 2^C`, `carry = s >> C`, which is 0 or 1. -/
def addLoop (a b : Wide) : Nat → Nat × Bool
  | 0 => (0, false)
  | n + 1 =>
    match addLoop a b n with
    | (t, carry) =>
      let s := (chunk a n).toNat + (chunk b n).toNat + carry.toNat
      (t + s % 2 ^ 64 * 2 ^ (64 * n), decide (2 ^ 64 ≤ s))

/-- The loop of SUB (R73) over chunks 0 to n-1: the value of the chunks stored so far, and the borrow out of them. At
each chunk `d = a[i] - b[i] - borrow`; when `d < 0` the chunk stored is `d + 2^C` and the borrow is 1. -/
def subLoop (a b : Wide) : Nat → Nat × Bool
  | 0 => (0, false)
  | n + 1 =>
    match subLoop a b n with
    | (t, borrow) =>
      let take := (chunk b n).toNat + borrow.toNat
      if (chunk a n).toNat < take then
        (t + ((chunk a n).toNat + 2 ^ 64 - take) * 2 ^ (64 * n), true)
      else
        (t + ((chunk a n).toNat - take) * 2 ^ (64 * n), false)

/-- The loop of CMP (R77) over chunks n-1 down to 0: the first differing chunk from the top decides. -/
def compareChunks (a b : Wide) : Nat → Ordering
  | 0 => .eq
  | n + 1 =>
    if (chunk b n).toNat < (chunk a n).toNat then .gt
    else if (chunk a n).toNat < (chunk b n).toNat then .lt
    else compareChunks a b n

/-- 0 = Less, 1 = Equal, 2 = Greater (30_encoding.md R62). -/
def compareCode : Ordering → BitVec 64
  | .lt => 0
  | .eq => 1
  | .gt => 2

/-- Every one of the chunks 0 to n-1 is zero (R79). -/
def zeroChunks (a : Wide) : Nat → Bool
  | 0 => true
  | n + 1 => zeroChunks a n && chunk a n == 0

/-- 1 for true, 0 for false (30_encoding.md R62). -/
def boolCode (b : Bool) : BitVec 64 := if b then 1 else 0

/-- The bit length of an integer (R78): 0 for 0, else the index of the highest set bit plus 1. -/
def bitLength (n : Nat) : Nat := if n = 0 then 0 else Nat.log2 n + 1

end Sys2Proof.Machine
end

