-- ==== Sys2Proof/Machine/Operands.lean ====
section
/-! DEFINITION. The one operand form of the codec that needs a check: the unit a descriptor names (41_index_codec.md
R102, R103), and the two unit primitives UnitRead and UnitWrite (20_memory.md R33 to R35), chunk by chunk as written
there. -/

namespace Sys2Proof.Machine

/-- One unit of a wide register: a granularity and a unit index below `unit_count` (20_memory.md R32). -/
structure UnitRef where
  mode  : Mode
  index : Nat
deriving DecidableEq, Repr

/-- `Valid(d)` (41_index_codec.md R102). -/
def validDesc (d : Desc) : Bool :=
  descVersion d == 0 && descReserved d == 0 &&
    match Mode.ofField (descMode d) with
    | some m => decide ((descOffset d).toNat < m.unitCount)
    | none => false

/-- `Check(d)` (R103): the version first, every other defect OutOfRange; when it is Ok, the unit the descriptor names.
The three flag bits play no part (R102, R116). -/
def checkDesc (d : Desc) : Except ErrorKind UnitRef :=
  if descVersion d = 1 then .error .unsupportedVersion
  else if descReserved d ≠ 0 then .error .outOfRange
  else
    match Mode.ofField (descMode d) with
    | none => .error .outOfRange
    | some m =>
      if m.unitCount ≤ (descOffset d).toNat then .error .outOfRange
      else .ok ⟨m, (descOffset d).toNat⟩

/-- `2^u - 1` within a chunk (R35). -/
def lowMask (u : Nat) : Chunk := BitVec.ofNat 64 (2 ^ u - 1)

/-- The chunk a unit of modes 0 to 5 lies in: `ci = k div upc(m)` (R33). -/
def unitChunk (m : Mode) (k : Nat) : Nat := k / m.upc

/-- The bit position of that unit in its chunk: `pos = (k mod upc(m)) * u` (R33). -/
def unitPos (m : Mode) (k : Nat) : Nat := k % m.upc * m.unitBits

/-- UnitRead for modes 0 to 5 (R34, R109): `(V[r].w[ci] >> pos) mod 2^u`. -/
def readScalarUnit (x : Wide) (m : Mode) (k : Nat) : BitVec 64 :=
  (chunk x (unitChunk m k) >>> unitPos m k) &&& lowMask m.unitBits

/-- UnitRead for modes 6 to 11, zero-extended (R34, R110): chunk j of the result is chunk `n*k + j` of the store for
`j < n = cpu(m)`, and 0 above. -/
def readSubUnit (x : Wide) (m : Mode) (k : Nat) : Wide :=
  ofChunks fun j => if j < m.cpu then chunk x (m.cpu * k + j) else 0

/-- UnitWrite for modes 0 to 5 (R35, R112): a read-modify-write of one chunk,
`(V[r].w[ci] & ~mask) | ((v mod 2^u) << pos)` with `mask = (2^u - 1) << pos`. For mode 5 the mask is the whole chunk, so
`V[rd].w[k] <- v` (R113). -/
def writeScalarUnit (x : Wide) (m : Mode) (k : Nat) (v : BitVec 64) : Wide :=
  let mask := lowMask m.unitBits <<< unitPos m k
  setChunk x (unitChunk m k)
    ((chunk x (unitChunk m k) &&& ~~~mask) ||| ((v &&& lowMask m.unitBits) <<< unitPos m k))

/-- UnitWrite for modes 6 to 11 (R35, R114): chunks `n*k` to `n*k + n-1` of the store become the low `n = cpu(m)`
chunks of the source. -/
def writeSubUnit (x src : Wide) (m : Mode) (k : Nat) : Wide :=
  ofChunks fun i => if m.cpu * k ≤ i ∧ i < m.cpu * k + m.cpu then chunk src (i - m.cpu * k) else chunk x i

/-- `UnitRead(r, m, k)` as the value R34 gives first: `(val >> (unit_bits(m) * k)) mod 2^unit_bits(m)`, for every mode.
The statements compare the chunk-by-chunk forms above with it. -/
def unitValue (x : Wide) (m : Mode) (k : Nat) : Nat := (x.toNat >>> (m.unitBits * k)) % 2 ^ m.unitBits

end Sys2Proof.Machine
end

