-- ==== Sys2Proof/Machine/Ops.lean ====
section
/-! DEFINITION. The shared operations: reading and writing a wide register, ending a command (with success or with an
error kind), and what the ports do between commands. -/

namespace Sys2Proof.Machine

/-! ### Registers (10_state.md R10 to R16) -/

/-- Read of a wide register. Reads have no side effect (20_memory.md R37). -/
def readWide (s : State) : WReg → Wide
  | .v0 => s.v0
  | .v1 => s.v1
  | .v2 => s.v2
  | .v3 => s.v3

/-- Write of a whole wide register; the other three are not touched. -/
def writeWide (s : State) (r : WReg) (x : Wide) : State :=
  match r with
  | .v0 => { s with v0 := x }
  | .v1 => { s with v1 := x }
  | .v2 => { s with v2 := x }
  | .v3 => { s with v3 := x }

/-! ### Ending a command -/

/-- A command ends Ok with the scalar v: `STATUS <- 0; RESULT <- v` (R15, R16). -/
def succeed (v : BitVec 64) (s : State) : State := { s with status := okCode, result := v }

/-- `raise <Status>`, the "trap entry" of this hardware (60_exceptions.md R133): STATUS gets the code, RESULT gets 0, no
wide register is written, and nothing else happens. There is no return from it (R134). -/
def raise (e : ErrorKind) (s : State) : State := { s with status := e.code, result := 0 }

/-- The end of a command whose result goes to a wide register: `V[rd] <- x; STATUS <- 0; RESULT <- 0`, or a raise. -/
def respondWide (rd : WReg) (r : Except ErrorKind Wide) (s : State) : State :=
  match r with
  | .ok x => succeed 0 (writeWide s rd x)
  | .error e => raise e s

/-- The end of a command whose result is a scalar: `STATUS <- 0; RESULT <- v`, or a raise. -/
def respondScalar (r : Except ErrorKind (BitVec 64)) (s : State) : State :=
  match r with
  | .ok v => succeed v s
  | .error e => raise e s

/-! ### Ports and handshake (10_state.md R22; 70_reset_and_hazards.md R150, R154, R157) -/

/-- What the host drives at this step; nothing once its list is used up. -/
def portIn (s : State) : PortIn := s.host.headD ⟨false, false, 0⟩

/-- The output port `cmd_ready`: "the engine is idle and takes the packet presented" (R22). DESIGN CHOICE (log entry 13):
what it shows while `rst` is asserted. The spec gives its value after release only (R150); here it does not look at `rst`,
so an idle engine shows 1 under `rst`, although a packet presented then is not taken. -/
def cmdReady (s : State) : Bool := s.taken.isNone

/-- The output port `rsp_valid` (R22). DESIGN CHOICE (log entry 13): while `rst` is asserted it shows what it showed before,
until the step that resets has happened; the spec gives its value after release only (R150). -/
def portRspValid (s : State) : Bool := s.rspValid

/-- The output port `status`: "the STATUS register" (R22); readable at any time, without effect (R157). -/
def portStatus (s : State) : BitVec 8 := s.status

/-- The output port `result`: "the RESULT register" (R22). -/
def portResult (s : State) : BitVec 64 := s.result

/-- The host's next sample becomes the present one. -/
def advanceHost (s : State) : State := { s with host := s.host.tail }

/-- `rst` (R150): the reset state whatever the engine was doing; what the host drives next is not the engine's. -/
def applyReset (s : State) : State := { State.reset with host := s.host.tail }

/-- A packet is taken: from here `cmd_ready` is 0 and `rsp_valid` is 0 until the command ends (R154). -/
def takePacket (p : Packet) (s : State) : State := { advanceHost s with taken := some p, rspValid := false }

/-- The command taken ends at this step: the engine is ready again and `rsp_valid` is 1 (R154). A packet the host
presents meanwhile is not taken and not queued. -/
def endCommand (s : State) : State := { advanceHost s with taken := none, rspValid := true }

end Sys2Proof.Machine
end

