-- ==== Sys2Proof/Machine/ChunkStore.lean ====
section
/-! DEFINITION. The nine commands of the chunk store and arithmetic engine (40_arithmetic.md). Every source register is
read in full before the destination is written (10_state.md R19), and every command ends (70_reset_and_hazards.md R156),
so each meaning answers a next state. -/

namespace Sys2Proof.Machine

/-- ADD on values (R72): the carry loop over all N chunks; Overflow if "a carry escapes the most significant word". -/
def addWide (a b : Wide) : Except ErrorKind Wide :=
  match addLoop a b 128 with
  | (t, carry) => if carry then .error .overflow else .ok (ofValue t)

/-- SUB on values (R73): the borrow loop over all N chunks; the final borrow is discarded. -/
def subWide (a b : Wide) : Wide := ofValue (subLoop a b 128).1

/-- MUL on values (R74): the full product, Overflow when it does not fit W bits. "any algorithm with the same result is
allowed": the schoolbook one is in Machine/Reference.lean. -/
def mulWide (a b : Wide) : Except ErrorKind Wide :=
  if a.toNat * b.toNat < 2 ^ Config.W then .ok (ofValue (a.toNat * b.toNat)) else .error .overflow

/-- DIV on values (R75): floor quotient of the whole values. -/
def divWide (a b : Wide) : Except ErrorKind Wide :=
  if b.toNat = 0 then .error .divisionByZero else .ok (ofValue (a.toNat / b.toNat))

/-- MOD on values (R76): `r = a - b * (a div b)`. -/
def modWide (a b : Wide) : Except ErrorKind Wide :=
  if b.toNat = 0 then .error .divisionByZero else .ok (ofValue (a.toNat - b.toNat * (a.toNat / b.toNat)))

/-- INIT rd, v (R71): `V[rd].w[0] <- v`, every other chunk 0. -/
def execInit (rd : WReg) (v : BitVec 64) (s : State) : Host.Outcome State Fault Refusal :=
  .next (respondWide rd (.ok (ofChunks fun i => if i = 0 then v else 0)) s)

/-- ADD rd, ra, rb (R72). -/
def execAdd (rd ra rb : WReg) (s : State) : Host.Outcome State Fault Refusal :=
  .next (respondWide rd (addWide (readWide s ra) (readWide s rb)) s)

/-- SUB rd, ra, rb (R73): always Ok. -/
def execSub (rd ra rb : WReg) (s : State) : Host.Outcome State Fault Refusal :=
  .next (respondWide rd (.ok (subWide (readWide s ra) (readWide s rb))) s)

/-- MUL rd, ra, rb (R74). -/
def execMul (rd ra rb : WReg) (s : State) : Host.Outcome State Fault Refusal :=
  .next (respondWide rd (mulWide (readWide s ra) (readWide s rb)) s)

/-- DIV rd, ra, rb (R75): ra the dividend, rb the divisor. -/
def execDiv (rd ra rb : WReg) (s : State) : Host.Outcome State Fault Refusal :=
  .next (respondWide rd (divWide (readWide s ra) (readWide s rb)) s)

/-- MOD rd, ra, rb (R76): ra the dividend, rb the divisor. -/
def execMod (rd ra rb : WReg) (s : State) : Host.Outcome State Fault Refusal :=
  .next (respondWide rd (modWide (readWide s ra) (readWide s rb)) s)

/-- CMP ra, rb (R77): most significant chunk first. -/
def execCmp (ra rb : WReg) (s : State) : Host.Outcome State Fault Refusal :=
  .next (respondScalar (.ok (compareCode (compareChunks (readWide s ra) (readWide s rb) 128))) s)

/-- BITLEN ra (R78). -/
def execBitlen (ra : WReg) (s : State) : Host.Outcome State Fault Refusal :=
  .next (respondScalar (.ok (BitVec.ofNat 64 (bitLength (readWide s ra).toNat))) s)

/-- ISZERO ra (R79): every chunk is looked at. -/
def execIszero (ra : WReg) (s : State) : Host.Outcome State Fault Refusal :=
  .next (respondScalar (.ok (boolCode (zeroChunks (readWide s ra) 128))) s)

end Sys2Proof.Machine
end

