-- ==== Sys2Proof/Machine/Codec.lean ====
section
/-! DEFINITION. The five commands of the structural index codec (41_index_codec.md). -/

namespace Sys2Proof.Machine

/-- ENCODE on its parameter word (R105): InvalidArgument for a reserved mode or an offset of `unit_count(m)` or more
(R115 property (3)). -/
def encodeDesc (p : EncodeParams) : Except ErrorKind Desc :=
  match Mode.ofField p.mode with
  | none => .error .invalidArgument
  | some m => if m.unitCount ≤ p.offset.toNat then .error .invalidArgument else .ok (packDesc p)

/-- ENCODE (R105): `RESULT <- zext_64(d)`. DECODE and VALIDATE of that descriptor are R115's properties (1) and (2). -/
def execEncode (p : EncodeParams) (s : State) : Host.Outcome State Fault Refusal :=
  .next (respondScalar ((encodeDesc p).map fun d => d.setWidth 64) s)

/-- DECODE desc (R106): "pure bit extraction, no validation". -/
def execDecode (d : Desc) (s : State) : Host.Outcome State Fault Refusal :=
  .next (respondScalar (.ok (unpackDesc d)) s)

/-- VALIDATE desc (R107): `STATUS <- code(Check(d)); RESULT <- 0`. -/
def execValidate (d : Desc) (s : State) : Host.Outcome State Fault Refusal :=
  .next (respondScalar ((checkDesc d).map fun _ => 0) s)

/-- READ rd, ra, desc (R108): the check first; modes 0 to 5 to RESULT (R109), modes 6 to 11 to V[rd] (R110).
R115's properties (4) and (5) are about it. -/
def execRead (rd ra : WReg) (d : Desc) (s : State) : Host.Outcome State Fault Refusal :=
  .next <|
    match checkDesc d with
    | .error e => raise e s
    | .ok u =>
      if u.mode.isScalar then respondScalar (.ok (readScalarUnit (readWide s ra) u.mode u.index)) s
      else respondWide rd (.ok (readSubUnit (readWide s ra) u.mode u.index)) s

/-- WRITE rd, ra, desc, value (R111): the check first; modes 0 to 5 take DATA (R112, R113), modes 6 to 11 the low chunks
of V[ra] (R114). A value too wide for the unit is masked. R115's properties (6) and (7) are about it. -/
def execWrite (rd ra : WReg) (d : Desc) (v : BitVec 64) (s : State) : Host.Outcome State Fault Refusal :=
  .next <|
    match checkDesc d with
    | .error e => raise e s
    | .ok u =>
      if u.mode.isScalar then respondWide rd (.ok (writeScalarUnit (readWide s rd) u.mode u.index v)) s
      else respondWide rd (.ok (writeSubUnit (readWide s rd) (readWide s ra) u.mode u.index)) s

end Sys2Proof.Machine
end

