-- ==== Sys2Proof/Machine/Dispatch.lean ====
section
/-! DEFINITION. One arm per command of 30_encoding.md R56. -/

namespace Sys2Proof.Machine

-- The meaning of each command is one definition of Machine/ChunkStore.lean or Machine/Codec.lean.
def exec (i : Instr) (s : State) : Host.Outcome State Fault Refusal :=
  match i with
  | .init rd v => Sys2Proof.Machine.execInit rd v s
  | .add rd ra rb => Sys2Proof.Machine.execAdd rd ra rb s
  | .sub rd ra rb => Sys2Proof.Machine.execSub rd ra rb s
  | .mul rd ra rb => Sys2Proof.Machine.execMul rd ra rb s
  | .div rd ra rb => Sys2Proof.Machine.execDiv rd ra rb s
  | .mod rd ra rb => Sys2Proof.Machine.execMod rd ra rb s
  | .cmp ra rb => Sys2Proof.Machine.execCmp ra rb s
  | .bitlen ra => Sys2Proof.Machine.execBitlen ra s
  | .iszero ra => Sys2Proof.Machine.execIszero ra s
  | .encode p => Sys2Proof.Machine.execEncode p s
  | .decode d => Sys2Proof.Machine.execDecode d s
  | .validate d => Sys2Proof.Machine.execValidate d s
  | .read rd ra d => Sys2Proof.Machine.execRead rd ra d s
  | .write rd ra d v => Sys2Proof.Machine.execWrite rd ra d v s

end Sys2Proof.Machine
end

