-- ==== Sys2Proof/Machine/Fetch.lean ====
section
/-! DEFINITION. Running the packet the engine has taken. There is no program counter and no instruction memory
(10_state.md R17): the packet comes from the command port. -/

namespace Sys2Proof.Machine

/-- One command as R17 reads it, `State -> Packet -> State`: decode, then execute; a packet that spells no command is
answered with InvalidCommand and is not decoded further (30_encoding.md R58; 60_exceptions.md R132). -/
def runPacket (p : Packet) (s : State) : Host.Outcome State Fault Refusal :=
  match decode p with
  | .ok i => exec i s
  | .error _ => .next (raise .invalidCommand s)

/-- Commands run one after another, each wholly before the next (20_memory.md R42). -/
def runCommands : List Instr → State → Host.Outcome State Fault Refusal
  | [], s => .next s
  | i :: is, s =>
    match exec i s with
    | .next t => runCommands is t
    | .fault r => .fault r
    | .refused r => .refused r

/-- The command port of a host that presents `p` and does not assert `rst`. -/
def presenting (p : Packet) : PortIn := ⟨false, true, p⟩

/-- A host that drives nothing. -/
def quietPort : PortIn := ⟨false, false, 0⟩

/-- A host's program (60_exceptions.md R138: "a host's sequence of commands"): each packet is presented at one step and
the host drives nothing at the next, at which the command ends. -/
def hostProgram : List Packet → List PortIn
  | [] => []
  | p :: ps => presenting p :: quietPort :: hostProgram ps

/-- The host's present sample with `rst` taken away. -/
def withoutRst : List PortIn → List PortIn
  | [] => []
  | io :: rest => { io with rst := false } :: rest

end Sys2Proof.Machine
end

