-- ==== Sys2Proof/Machine/Step.lean ====
section
/-! DEFINITION. One step of the machine. -/

namespace Sys2Proof.Machine

/-- One step. `rst` wins over everything (70_reset_and_hazards.md R150). Otherwise a command that was taken runs, as one
atomic step, and ends (10_state.md R19; R154); otherwise the engine is idle and takes the packet the host presents, if
it presents one, and else keeps all its state (60_exceptions.md R140). -/
def step (s : State) : Host.Outcome State Fault Refusal :=
  if (portIn s).rst then .next (applyReset s)
  else
    match s.taken with
    | some p => runPacket p (endCommand s)
    | none => .next (if (portIn s).cmdValid then takePacket (portIn s).cmd s else advanceHost s)

/-- `s` with the table word's packet taken, so that the very next step runs it: the taken command is replaced, `rsp_valid`
is 0 as it is while a command is in progress (R154), and `rst` is not asserted at that step. It stands for the host
having presented the packet (log entry 3). -/
def State.withFetchWord (s : State) (nbits w : Nat) : State :=
  { s with taken := some (tablePacket nbits w), rspValid := false, host := withoutRst s.host }

end Sys2Proof.Machine
end

