-- ==== Sys2Proof/Machine/Assembly.lean ====
section
/-! DEFINITION. The assembler of 30_encoding.md R63 and the pseudo-instructions of R64, as data: what each line of
assembly stands for. They add no command: each line is an `Instr`. -/

namespace Sys2Proof.Machine

/-- One line of assembly (R63, R64). A keyword operand left out is `none` and takes the default R63 shows. -/
inductive AsmLine where
  | init (vd : WReg) (value : Option (BitVec 64))
  | add (vd va vb : WReg)
  | sub (vd va vb : WReg)
  | mul (vd va vb : WReg)
  | div (vd va vb : WReg)
  | mod (vd va vb : WReg)
  | cmp (va vb : WReg)
  | bitlen (va : WReg)
  | iszero (va : WReg)
  | encode (mode : BitVec 4) (offset : BitVec 32) (signed le csel : Option (BitVec 1))
  | decode (d : Desc)
  | validate (d : Desc)
  /-- `READ Va, desc`, modes 0 to 5. -/
  | readScalar (va : WReg) (d : Desc)
  /-- `READ Vd, Va, desc`, modes 6 to 11. -/
  | readSub (vd va : WReg) (d : Desc)
  /-- `WRITE Vd, desc, value`, modes 0 to 5. -/
  | writeScalar (vd : WReg) (d : Desc) (value : BitVec 64)
  /-- `WRITE Vd, desc, Va`, modes 6 to 11. -/
  | writeSub (vd : WReg) (d : Desc) (va : WReg)
  /-- `ADDA Va, Vb` = `ADD Va, Va, Vb`. -/
  | adda (va vb : WReg)
  /-- `SUBA Va, Vb` = `SUB Va, Va, Vb`. -/
  | suba (va vb : WReg)
  /-- `MULA Va, Vb` = `MUL Va, Va, Vb`. -/
  | mula (va vb : WReg)
  /-- `DIVA Va, Vb` = `DIV Va, Va, Vb`. -/
  | diva (va vb : WReg)
  /-- `MODA Va, Vb` = `MOD Va, Va, Vb`. -/
  | moda (va vb : WReg)
  /-- `CLR Vd` = `INIT Vd, 0`. -/
  | clr (vd : WReg)
deriving DecidableEq, Repr

/-- The instruction a line stands for (R63, R64). -/
def assemble : AsmLine → Instr
  | .init vd value => .init vd (value.getD 0)
  | .add vd va vb => .add vd va vb
  | .sub vd va vb => .sub vd va vb
  | .mul vd va vb => .mul vd va vb
  | .div vd va vb => .div vd va vb
  | .mod vd va vb => .mod vd va vb
  | .cmp va vb => .cmp va vb
  | .bitlen va => .bitlen va
  | .iszero va => .iszero va
  | .encode mode offset signed le csel => .encode ⟨signed.getD 0, csel.getD 0, le.getD 1, mode, offset⟩
  | .decode d => .decode d
  | .validate d => .validate d
  | .readScalar va d => .read .v0 va d
  | .readSub vd va d => .read vd va d
  | .writeScalar vd d value => .write vd .v0 d value
  | .writeSub vd d va => .write vd va d 0
  | .adda va vb => .add va va vb
  | .suba va vb => .sub va va vb
  | .mula va vb => .mul va va vb
  | .diva va vb => .div va va vb
  | .moda va vb => .mod va va vb
  | .clr vd => .init vd 0

/-- The descriptor's mode is one of 0 to 5 (`scalar`) or of 6 to 11. -/
def descModeIs (scalar : Bool) (d : Desc) : Bool :=
  match Mode.ofField (descMode d) with
  | some m => m.isScalar == scalar
  | none => false

/-- The two forms of READ and of WRITE are each written for their own modes (R63). -/
def AsmLine.legal : AsmLine → Bool
  | .readScalar _ d | .writeScalar _ d _ => descModeIs true d
  | .readSub _ _ d | .writeSub _ d _ => descModeIs false d
  | _ => true

/-- The notation `D(mode, offset, s, cs, e)` (R63): the value ENCODE builds for these fields. -/
def descNotation (mode : BitVec 4) (offset : BitVec 32) (s cs e : BitVec 1) : Desc := packDesc ⟨s, cs, e, mode, offset⟩

/-- The notation `D(mode, offset)`: the default flags, `(mode << 27) | (1 << 16) | offset` (R63). -/
def descDefault (mode : BitVec 4) (offset : BitVec 32) : Desc := descNotation mode offset 0 0 1

/-- The commands of the decomposition round trip (41_index_codec.md R115 property (5); 95_test_vectors.md E6), for the units
0 to n-1 of mode m: `CLR copy`, then for each unit `READ part, store, D(m, k)` and `WRITE copy, D(m, k), part`. -/
def reassembly (m : Mode) (store part copy : WReg) : Nat → List Instr
  | 0 => [assemble (.clr copy)]
  | n + 1 =>
    let d := descDefault (BitVec.ofNat 4 m.number) (BitVec.ofNat 32 n)
    reassembly m store part copy n ++ [assemble (.readSub part store d), assemble (.writeSub copy d part)]

end Sys2Proof.Machine
end

