-- ==== Sys2Proof/Machine/Bytes.lean ====
section
/-! DEFINITION. The byte image of a wide register (20_memory.md R40, R41). Functions on a register's value; no command
performs them. -/

namespace Sys2Proof.Machine

/-- Bit position at which byte j of the image starts: `8*j` in little-endian order, `8*(1023 - j)` in big-endian. -/
def bytePos (le : Bool) (j : Nat) : Nat := if le then 8 * j else 8 * (1023 - j)

/-- `ToBytes(r, le)` (R40): `B[j] = (x >> pos) mod 256`, exactly 1024 bytes. -/
def toBytes (x : Wide) (le : Bool) : Vector Byte 1024 :=
  Vector.ofFn fun j : Fin 1024 => BitVec.ofNat 8 (x.toNat >>> bytePos le j.val)

/-- The sum of R41 over bytes 0 to n-1. -/
def sumBytes (B : Nat → Byte) (le : Bool) : Nat → Nat
  | 0 => 0
  | n + 1 => sumBytes B le n + (B n).toNat * 2 ^ bytePos le n

/-- `FromBytes(B, le)` (R41), "defined only for length 1024": the type admits no other. -/
def fromBytes (B : Vector Byte 1024) (le : Bool) : Wide := ofValue (sumBytes (fun j => B.toList.getD j 0) le 1024)

end Sys2Proof.Machine
end

