-- ==== Sys2Proof/Machine/Reference.lean ====
section
/-! DEFINITION. The reference algorithms the spec writes out beside the values: schoolbook multiplication
(40_arithmetic.md R74), restoring division (R75) and the chunk-wise reading of the bit length (R78). The commands compute
the same results on whole values (Machine/ChunkStore.lean); statements compare the two. -/

namespace Sys2Proof.Machine

/-- The inner loop of R74 for row i over columns 0 to j-1, from the product so far: the product and the carry. At each
column `t = a[i] * b[j] + P[i+j] + carry`, `P[i+j] = t mod 2^C`, `carry = t >> C`. -/
def schoolbookRow (a b : Wide) (i : Nat) (P : Nat → Nat) : Nat → (Nat → Nat) × Nat
  | 0 => (P, 0)
  | j + 1 =>
    match schoolbookRow a b i P j with
    | (Q, carry) =>
      let t := (chunk a i).toNat * (chunk b j).toNat + Q (i + j) + carry
      (Function.update Q (i + j) (t % 2 ^ 64), t / 2 ^ 64)

/-- The outer loop of R74 over rows 0 to i-1: `P[i+N] = carry` closes each row. -/
def schoolbookRows (a b : Wide) : Nat → Nat → Nat
  | 0 => fun _ => 0
  | i + 1 =>
    let row := schoolbookRow a b i (schoolbookRows a b i) 128
    Function.update row.1 (i + 128) row.2

/-- `P[0 .. 2N-1]`, the full product of R74. -/
def schoolbook (a b : Wide) : Nat → Nat := schoolbookRows a b 128

/-- Restoring shift-and-subtract division (R75) after n of the W steps, which take bit indices W-1 down to W-n:
the quotient and the remainder so far. -/
def restoringDivision (a b : Wide) : Nat → Nat × Nat
  | 0 => (0, 0)
  | n + 1 =>
    match restoringDivision a b n with
    | (q, r) =>
      let i := 8191 - n
      let r' := 2 * r + (a.getLsbD i).toNat
      if b.toNat ≤ r' then (q ||| 1 <<< i, r' - b.toNat) else (q, r')

/-- The chunk-wise bit length of R78 over chunks n-1 down to 0: at the highest non-zero chunk i, `C*i` plus the bit
length of that chunk. -/
def chunkBitLength (a : Wide) : Nat → Nat
  | 0 => 0
  | n + 1 => if chunk a n = 0 then chunkBitLength a n else 64 * n + (Nat.log2 (chunk a n).toNat + 1)

end Sys2Proof.Machine
end

