-- ==== Sys2Proof/Safety.lean ====
section
/-! DEFINITION. The vocabulary of the statements: what a command leaves unchanged, the three ways a command ends, the
invariant of the machine, and what a safe run is. -/

namespace Sys2Proof.Machine

/-- The handshake and the host's input are as before: no command touches them. That State holds them at all is the model's
choice (log entries 1 and 2). -/
def SameShell (s t : State) : Prop := t.taken = s.taken ∧ t.rspValid = s.rspValid ∧ t.host = s.host

/-- Every wide register is unchanged. -/
def KeepsWide (s t : State) : Prop := ∀ r, readWide t r = readWide s r

/-- Every wide register but `rd` is unchanged (10_state.md R12). -/
def KeepsWideBut (rd : WReg) (s t : State) : Prop := ∀ r, r ≠ rd → readWide t r = readWide s r

/-- A command ends Ok with a scalar in RESULT: STATUS is 0 and no wide register is written. -/
structure EndsScalar (s t : State) (v : BitVec 64) : Prop where
  status : t.status = 0
  result : t.result = v
  wide   : KeepsWide s t
  shell  : SameShell s t

/-- A command ends Ok having written `x` to V[rd]: STATUS and RESULT are 0, no other wide register is written. -/
structure EndsWide (s t : State) (rd : WReg) (x : Wide) : Prop where
  status : t.status = 0
  result : t.result = 0
  dest   : readWide t rd = x
  others : KeepsWideBut rd s t
  shell  : SameShell s t

/-- A command fails (60_exceptions.md R133): STATUS is the code, RESULT is 0, no wide register is written. -/
structure EndsFailed (s t : State) (code : BitVec 8) : Prop where
  status : t.status = code
  result : t.result = 0
  wide   : KeepsWide s t
  shell  : SameShell s t

/-- The descriptor is valid and names unit k of mode m (41_index_codec.md R102). -/
def NamesUnit (d : Desc) (m : Mode) (k : Nat) : Prop :=
  descVersion d = 0 ∧ descReserved d = 0 ∧ Mode.ofField (descMode d) = some m ∧ (descOffset d).toNat = k ∧
    k < m.unitCount

/-- The descriptor's version bit is 0 and it has another defect: reserved bits, a reserved mode, or an offset of
`unit_count` or more (R102, R103). -/
def OutOfRangeDesc (d : Desc) : Prop :=
  descVersion d = 0 ∧
    (descReserved d ≠ 0 ∨ 11 < (descMode d).toNat ∨
      ∃ m, Mode.ofField (descMode d) = some m ∧ m.unitCount ≤ (descOffset d).toNat)

/-- The two descriptors differ at most in bits 18, 17 and 16 (R116). -/
def SameButFlags (d d' : Desc) : Prop :=
  descVersion d = descVersion d' ∧ descMode d = descMode d' ∧ descReserved d = descReserved d' ∧
    descOffset d = descOffset d'

/-- The six items of "the complete state of the engine" (10_state.md R21) are at their reset values (R23). -/
structure AtReset (s : State) : Prop where
  wide   : ∀ r, readWide s r = 0
  status : s.status = 0
  result : s.result = 0

/-- The invariant of the machine: "Only the values 0 to 6 are ever written" to STATUS (R15); a non-zero STATUS comes with
RESULT = 0 (R16, R133); `rsp_valid` is 0 while a command is in progress (70_reset_and_hazards.md R154); and an idle
engine that shows no response is a freshly reset one (R150). -/
structure EngineInv (s : State) : Prop where
  statusLegal   : s.status.toNat ≤ 6
  failedResult  : s.status ≠ 0 → s.result = 0
  busySilent    : s.taken ≠ none → s.rspValid = false
  silentIsReset : s.taken = none → s.rspValid = false → AtReset s

/-- A safe run of n steps: it answers a next state, it does not stop (R156). -/
def RunsOn (n : Nat) (s : State) : Prop := ∃ t : State, Sys2Proof.core.run n s = .next t

/-- The host presents a packet at this step and does not assert `rst`. -/
def Presents (s : State) (p : Packet) : Prop := (portIn s).rst = false ∧ (portIn s).cmdValid = true ∧ (portIn s).cmd = p

/-- The wide register a command may write (10_state.md R12); none for CMP, BITLEN, ISZERO, ENCODE, DECODE, VALIDATE and
for READ of modes 0 to 5. -/
def destOf : Instr → Option WReg
  | .init rd _ => some rd
  | .add rd _ _ => some rd
  | .sub rd _ _ => some rd
  | .mul rd _ _ => some rd
  | .div rd _ _ => some rd
  | .mod rd _ _ => some rd
  | .cmp _ _ => none
  | .bitlen _ => none
  | .iszero _ => none
  | .encode _ => none
  | .decode _ => none
  | .validate _ => none
  | .read rd _ d => if descModeIs false d then some rd else none
  | .write rd _ _ _ => some rd

/-- Which packet fields a command uses: the columns of 30_encoding.md R56. `dataBits` is how many low bits of DATA it uses
(ENCODE ignores DATA bits 63:39, R60). For READ and WRITE the use of `rd`, `ra` and DATA depends further on the
descriptor's mode (R57). -/
structure FieldUse where
  rd       : Bool
  ra       : Bool
  rb       : Bool
  desc     : Bool
  dataBits : Nat
deriving DecidableEq, Repr

/-- The table of R56. -/
def fieldUse : Opcode → FieldUse
  | .init => ⟨true, false, false, false, 64⟩
  | .add => ⟨true, true, true, false, 0⟩
  | .sub => ⟨true, true, true, false, 0⟩
  | .mul => ⟨true, true, true, false, 0⟩
  | .div => ⟨true, true, true, false, 0⟩
  | .mod => ⟨true, true, true, false, 0⟩
  | .cmp => ⟨false, true, true, false, 0⟩
  | .bitlen => ⟨false, true, false, false, 0⟩
  | .iszero => ⟨false, true, false, false, 0⟩
  | .encode => ⟨false, false, false, false, 39⟩
  | .decode => ⟨false, false, false, true, 0⟩
  | .validate => ⟨false, false, false, true, 0⟩
  | .read => ⟨true, true, false, true, 0⟩
  | .write => ⟨true, true, false, true, 64⟩

/-- Two packets agree in every field their command uses. -/
def AgreeOnUsed (u : FieldUse) (p p' : Packet) : Prop :=
  (u.rd = true → packetRd p = packetRd p') ∧ (u.ra = true → packetRa p = packetRa p') ∧
    (u.rb = true → packetRb p = packetRb p') ∧ (u.desc = true → packetDesc p = packetDesc p') ∧
    ∀ b, b < u.dataBits → (packetData p).getLsbD b = (packetData p').getLsbD b

/-- Chunk i of a wide register as a number: `V[r].w[i]`. -/
def chunkOf (s : State) (r : WReg) (i : Nat) : Nat := (chunk (readWide s r) i).toNat

/-- `val(V[r])` (10_state.md R11). -/
def val (s : State) (r : WReg) : Nat := (readWide s r).toNat

/-- The STATUS codes a command can end with (60_exceptions.md R131). -/
def possibleStatus : Instr → List (BitVec 8)
  | .init _ _ => [0]
  | .add _ _ _ => [0, 1]
  | .sub _ _ _ => [0]
  | .mul _ _ _ => [0, 1]
  | .div _ _ _ => [0, 2]
  | .mod _ _ _ => [0, 2]
  | .cmp _ _ => [0]
  | .bitlen _ => [0]
  | .iszero _ => [0]
  | .encode _ => [0, 3]
  | .decode _ => [0]
  | .validate _ => [0, 4, 5]
  | .read _ _ _ => [0, 4, 5]
  | .write _ _ _ _ => [0, 4, 5]

end Sys2Proof.Machine
end

