-- ==== Sys2Proof/Certificates/Slice0/Obligations.lean ====
section
/-! DEFINITION. The statements for the provers. Each docstring names the rule of spec/ it formalises, or, where it rests
on a consequence the spec marks as derived or on the model's own choice, says so. -/

open Sys2Proof Sys2Proof.Machine

/-! ### Reset, steps, the command port -/

/-- R23: after reset every chunk of V0 to V3 is 0, so every value is 0, and STATUS and RESULT are 0. -/
def Obligations.ResetLeavesAllZero : Prop :=
  (∀ r i, i < 128 → chunk (readWide State.reset r) i = 0) ∧ (∀ r, val State.reset r = 0) ∧
    State.reset.status = 0 ∧ State.reset.result = 0

/-- R150: asserting rst gives the reset state whatever the engine was doing and whatever is presented, with cmd_ready 1
and rsp_valid 0; no other step reaches that idle state unless it was there already; four INIT Vd, 0 reach the same
wide-register contents. -/
def Obligations.RstResetsFromAnyState : Prop :=
  (∀ s, (portIn s).rst = true →
    ∃ t, step s = .next t ∧ AtReset t ∧ cmdReady t = true ∧ portRspValid t = false ∧ t.host = s.host.tail) ∧
  (∀ s t, (portIn s).rst = false → step s = .next t → AtReset t → cmdReady t = true → portRspValid t = false →
    AtReset s ∧ cmdReady s = true ∧ portRspValid s = false) ∧
  (∀ s, ∃ t0 t1 t2 t3, exec (.init .v0 0) s = .next t0 ∧ exec (.init .v1 0) t0 = .next t1 ∧
    exec (.init .v2 0) t1 = .next t2 ∧ exec (.init .v3 0) t2 = .next t3 ∧
    ∀ r, readWide t3 r = readWide State.reset r)

/-- The reset state meets the invariant (R15, R16, R154, R150). -/
def Obligations.ResetMeetsInvariant : Prop := EngineInv State.reset

/-- Every step from a state that meets the invariant gives one that meets it: STATUS holds one of the codes 0 to 6, a
failing STATUS comes with RESULT 0, rsp_valid is 0 while a command is in progress, and an idle engine that shows no
response is a freshly reset one. -/
def Obligations.StepKeepsInvariant : Prop := ∀ s t, EngineInv s → step s = .next t → EngineInv t

/-- When the packet taken decodes to a command and rst is not asserted, the step is that command's meaning, run at the
state in which the engine is ready again and shows a response, everything else being as before (log entry 3: a command
ends at the step after the one that took it). -/
def Obligations.StepRunsTakenCommand : Prop :=
  ∀ s p i, (portIn s).rst = false → s.taken = some p → decode p = .ok i →
    ∃ s0, step s = exec i s0 ∧ KeepsWide s s0 ∧ s0.status = s.status ∧ s0.result = s.result ∧ s0.taken = none ∧
      s0.rspValid = true ∧ s0.host = s.host.tail

/-- R58: exactly the packets with a non-zero rsv field or an opcode that is not one of the 14 values spell no command, the
all-zero packet among them; the engine writes no wide register and answers STATUS 6, RESULT 0. -/
def Obligations.IllegalPacketIsInvalidCommand : Prop :=
  (∀ p, (∃ e, decode p = .error e) ↔
    packetRsv p ≠ 0 ∨ (packetOpcode p).toNat ∉
      [0x01, 0x10, 0x11, 0x12, 0x13, 0x14, 0x15, 0x16, 0x17, 0x20, 0x21, 0x22, 0x23, 0x24]) ∧
  (∃ e, decode 0 = .error e) ∧
  (∀ s p e, (portIn s).rst = false → s.taken = some p → decode p = .error e →
    ∃ t, step s = .next t ∧ t.status = 6 ∧ t.result = 0 ∧ KeepsWide s t ∧ cmdReady t = true ∧ portRspValid t = true)

/-- The handshake of 70_reset_and_hazards.md section 3: a packet presented to a ready engine is taken, cmd_ready and
rsp_valid go to 0 and nothing else of the engine changes; while a command is in progress what the host presents makes no
difference and is not queued. -/
def Obligations.HandshakeHoldsOneCommand : Prop :=
  (∀ s p, Presents s p → cmdReady s = true →
    ∃ t, step s = .next t ∧ t.taken = some p ∧ cmdReady t = false ∧ portRspValid t = false ∧ KeepsWide s t ∧
      t.status = s.status ∧ t.result = s.result ∧ t.host = s.host.tail) ∧
  (∀ s p q, Presents s p → s.taken = some q →
    step s = step { s with host := ⟨false, false, 0⟩ :: s.host.tail } ∧
    ∃ t, step s = .next t ∧ t.taken = none ∧ portRspValid t = true ∧ t.host = s.host.tail)

/-- Between commands the engine "is idle and keeps all its state" (60_exceptions.md section 6), the response shown among
it. -/
def Obligations.IdleEngineKeepsState : Prop :=
  ∀ s, (portIn s).rst = false → (portIn s).cmdValid = false → cmdReady s = true →
    ∃ t, step s = .next t ∧ KeepsWide s t ∧ t.status = s.status ∧ t.result = s.result ∧ t.taken = none ∧
      portRspValid t = portRspValid s ∧ t.host = s.host.tail

/-- Every command taken ends with a response, whatever the packet and whatever the state, and no run ever stops
(70_reset_and_hazards.md section 4). -/
def Obligations.EveryCommandEndsWithResponse : Prop :=
  (∀ s p, (portIn s).rst = false → s.taken = some p →
    ∃ t, step s = .next t ∧ cmdReady t = true ∧ portRspValid t = true ∧ t.status.toNat ≤ 6) ∧
  (∀ n s, RunsOn n s)

/-! ### Encoding -/

/-- Decoding the packet assembled for a command gives the command back, with every operand at every value: no bit of an
encoding is dropped. It holds for every command, canonical or not. -/
def Obligations.DecodeOfEncode : Prop := ∀ i : Instr, decode (encode i) = .ok i

/-- Encoding what was decoded keeps the opcode and every field the command's row of R56 uses, and writes 0 in the fields that
row marks "-" and in DATA bits 63:39 of ENCODE (30_encoding.md sections 3 and 5). The fields that only the mode of a READ or
WRITE descriptor leaves unused are kept: such a term is not canonical, which is the model's notion (log entry 9). -/
def Obligations.EncodeOfDecodeClearsIgnored : Prop :=
  ∀ p i, decode p = .ok i →
    packetOpcode (encode i) = packetOpcode p ∧ packetRsv (encode i) = 0 ∧
    packetRd (encode i) = (if (fieldUse i.opcode).rd then packetRd p else 0) ∧
    packetRa (encode i) = (if (fieldUse i.opcode).ra then packetRa p else 0) ∧
    packetRb (encode i) = (if (fieldUse i.opcode).rb then packetRb p else 0) ∧
    packetDesc (encode i) = (if (fieldUse i.opcode).desc then packetDesc p else 0) ∧
    ∀ b, (packetData (encode i)).getLsbD b = (decide (b < (fieldUse i.opcode).dataBits) && (packetData p).getLsbD b)

/-- R57: a field the table marks "-" is ignored, any value there decodes to the same command; where the mode of a READ or
WRITE does not use rd, ra or DATA, any value there gives the same state and response; the assembler writes 0 there. -/
def Obligations.IgnoredFieldsDoNotMatter : Prop :=
  (∀ (op : Opcode) (p p' : Packet), packetOpcode p = op.number → packetOpcode p' = op.number →
    packetRsv p = packetRsv p' → AgreeOnUsed (fieldUse op) p p' → decode p = decode p') ∧
  (∀ s d rd rd' ra, descModeIs true d = true → exec (.read rd ra d) s = exec (.read rd' ra d) s) ∧
  (∀ s d rd ra ra' v, descModeIs true d = true → exec (.write rd ra d v) s = exec (.write rd ra' d v) s) ∧
  (∀ s d rd ra v v', descModeIs false d = true → exec (.write rd ra d v) s = exec (.write rd ra d v') s) ∧
  (∀ i : Instr,
    ((fieldUse i.opcode).rd = false → packetRd (encode i) = 0) ∧
    ((fieldUse i.opcode).ra = false → packetRa (encode i) = 0) ∧
    ((fieldUse i.opcode).rb = false → packetRb (encode i) = 0) ∧
    ((fieldUse i.opcode).desc = false → packetDesc (encode i) = 0) ∧
    ∀ b, (fieldUse i.opcode).dataBits ≤ b → (packetData (encode i)).getLsbD b = false) ∧
  (∀ a : AsmLine, a.legal = true →
    (∀ rd ra d, assemble a = .read rd ra d → descModeIs true d = true → packetRd (encode (assemble a)) = 0) ∧
    ∀ rd ra d v, assemble a = .write rd ra d v →
      (descModeIs true d = true → packetRa (encode (assemble a)) = 0) ∧
      (descModeIs false d = true → packetData (encode (assemble a)) = 0))

/-- R56 and the opcode table: a packet spells the command of a row exactly when its CW masked with 0xFFFFC0FF is the row's
match, and the 14 matches are the opcode numbers of R56. -/
def Obligations.OpcodeTableDecides : Prop :=
  (∀ p op, packetCw p &&& 0xFFFFC0FF = op.number.setWidth 32 ↔ ∃ i, decode p = .ok i ∧ i.opcode = op) ∧
  Opcode.all.map (fun op => (op, op.number.toNat)) =
    [(.init, 0x01), (.add, 0x10), (.sub, 0x11), (.mul, 0x12), (.div, 0x13), (.mod, 0x14), (.cmp, 0x15),
      (.bitlen, 0x16), (.iszero, 0x17), (.encode, 0x20), (.decode, 0x21), (.validate, 0x22), (.read, 0x23),
      (.write, 0x24)]

/-- A few packets of 95_test_vectors.md, and one ENCODE word written out from 30_encoding.md section 5 with only `p_sign` of
the three flags set, decode to the command they stand for. -/
def Obligations.SampleWordsDecode : Prop :=
  decode 0x000000000000000A0000000000000201 = .ok (.init .v2 10) ∧
  decode 0x00000000000000000000000000001210 = .ok (.add .v2 .v0 .v1) ∧
  decode 0x00000000000000000000000000000A10 = .ok (.add .v2 .v2 .v0) ∧
  decode 0x00000000000000000000000000002015 = .ok (.cmp .v0 .v2) ∧
  decode 0x0000006B000000010000000000000020 = .ok (.encode ⟨1, 1, 0, 11, 1⟩) ∧
  decode 0x00000043000000050000000000000020 = .ok (.encode ⟨1, 0, 0, 3, 5⟩) ∧
  decode 0x0000000000000000580600010000002A = .error .undefinedOpcode ∧
  decode 0x00000000000000003001003F00000D23 = .ok (.read .v1 .v3 0x3001003F) ∧
  decode 0x00000000000000FF1001000000000024 = .ok (.write .v0 .v0 0x10010000 0xFF) ∧
  decode 0x00000000000000009001000000004023 = .error .reservedBits

/-! ### Chunk store and arithmetic -/

/-- R71: INIT ends Ok for every value, with chunk 0 the value, every other chunk 0, and nothing else changed. -/
def Obligations.InitCreatesValue : Prop :=
  ∀ s rd v, ∃ t x, exec (.init rd v) s = .next t ∧ EndsWide s t rd x ∧
    chunk x 0 = v ∧ (∀ i, 0 < i → i < 128 → chunk x i = 0) ∧ x.toNat = v.toNat

/-- R72: with the carries of the chunk loop, ADD stores the low C bits of each chunk sum and ends Ok when no carry escapes
chunk 127, and raises Overflow (1) when one does, the destination being unchanged whichever register it is. -/
def Obligations.AddPropagatesCarry : Prop :=
  ∀ s rd ra rb (carry : Nat → Nat), carry 0 = 0 →
    (∀ i, i < 128 → carry (i + 1) = (chunkOf s ra i + chunkOf s rb i + carry i) >>> 64) →
    (carry 128 = 0 → ∃ t x, exec (.add rd ra rb) s = .next t ∧ EndsWide s t rd x ∧
      ∀ i, i < 128 → (chunk x i).toNat = (chunkOf s ra i + chunkOf s rb i + carry i) % 2 ^ 64) ∧
    (carry 128 ≠ 0 → ∃ t, exec (.add rd ra rb) s = .next t ∧ EndsFailed s t 1)

/-- R73: with the borrows of the chunk loop, SUB stores each chunk difference modulo 2^C and always ends Ok; the final
borrow is discarded. -/
def Obligations.SubPropagatesBorrow : Prop :=
  ∀ s rd ra rb (borrow : Nat → Nat), borrow 0 = 0 →
    (∀ i, i < 128 → borrow (i + 1) = if chunkOf s ra i < chunkOf s rb i + borrow i then 1 else 0) →
    ∃ t x, exec (.sub rd ra rb) s = .next t ∧ EndsWide s t rd x ∧
      ∀ i, i < 128 →
        ((chunk x i).toNat : Int) = ((chunkOf s ra i : Int) - chunkOf s rb i - borrow i) % 2 ^ 64

/-- R74: MUL answers what the schoolbook algorithm gives: the low N chunks of the product when every high chunk is 0, and
Overflow (1) otherwise. -/
def Obligations.MulIsSchoolbook : Prop :=
  ∀ s rd ra rb,
    ((∀ k, 128 ≤ k → k < 256 → schoolbook (readWide s ra) (readWide s rb) k = 0) →
      ∃ t x, exec (.mul rd ra rb) s = .next t ∧ EndsWide s t rd x ∧
        ∀ i, i < 128 → (chunk x i).toNat = schoolbook (readWide s ra) (readWide s rb) i) ∧
    ((∃ k, 128 ≤ k ∧ k < 256 ∧ schoolbook (readWide s ra) (readWide s rb) k ≠ 0) →
      ∃ t, exec (.mul rd ra rb) s = .next t ∧ EndsFailed s t 1)

/-- R75: DIV gives the unique q with q*b ≤ a < (q+1)*b on whole values, and DivisionByZero (2) when the divisor is 0, the
destination then unchanged; it never raises Overflow. -/
def Obligations.DivIsFloorQuotient : Prop :=
  ∀ s rd ra rb,
    (val s rb ≠ 0 → ∃ t x, exec (.div rd ra rb) s = .next t ∧ EndsWide s t rd x ∧
      x.toNat * val s rb ≤ val s ra ∧ val s ra < (x.toNat + 1) * val s rb) ∧
    (val s rb = 0 → ∃ t, exec (.div rd ra rb) s = .next t ∧ EndsFailed s t 2)

/-- R76: MOD gives a - b * (a div b), which is below b and satisfies a = q*b + r with DIV's quotient q, and
DivisionByZero (2) when the divisor is 0, the destination then unchanged. -/
def Obligations.ModIsRemainder : Prop :=
  ∀ s rd ra rb,
    (val s rb ≠ 0 → ∃ t x, exec (.mod rd ra rb) s = .next t ∧ EndsWide s t rd x ∧
      x.toNat = val s ra - val s rb * (val s ra / val s rb) ∧ x.toNat < val s rb ∧
      ∃ t' q, exec (.div rd ra rb) s = .next t' ∧ EndsWide s t' rd q ∧ val s ra = q.toNat * val s rb + x.toNat) ∧
    (val s rb = 0 → ∃ t, exec (.mod rd ra rb) s = .next t ∧ EndsFailed s t 2)

/-- The restoring shift-and-subtract algorithm of 40_arithmetic.md section 6 gives the quotient DIV and the remainder MOD
deliver. -/
def Obligations.RestoringDivisionAgrees : Prop :=
  ∀ s rd ra rb, val s rb ≠ 0 →
    ∃ t t' q r, exec (.div rd ra rb) s = .next t ∧ EndsWide s t rd q ∧
      exec (.mod rd ra rb) s = .next t' ∧ EndsWide s t' rd r ∧
      restoringDivision (readWide s ra) (readWide s rb) 8192 = (q.toNat, r.toNat)

/-- R77: CMP answers Equal (1) when every chunk matches; otherwise the most significant differing chunk decides, Greater
(2) or Less (0). No wide register is written. -/
def Obligations.CmpTopDifferingChunkDecides : Prop :=
  ∀ s ra rb, ∃ t c, exec (.cmp ra rb) s = .next t ∧ EndsScalar s t c ∧
    ((∀ i, i < 128 → chunkOf s ra i = chunkOf s rb i) → c = 1) ∧
    ∀ i, i < 128 → (∀ j, i < j → j < 128 → chunkOf s ra j = chunkOf s rb j) →
      (chunkOf s rb i < chunkOf s ra i → c = 2) ∧ (chunkOf s ra i < chunkOf s rb i → c = 0)

/-- R78: BITLEN gives the least L with a < 2^L, which is 0 for 0 and at most 8192, and it is the chunk-wise bit length. -/
def Obligations.BitlenIsLeastBound : Prop :=
  ∀ s ra, ∃ t v, exec (.bitlen ra) s = .next t ∧ EndsScalar s t v ∧
    (∀ L, v.toNat ≤ L ↔ val s ra < 2 ^ L) ∧ (val s ra = 0 → v = 0) ∧ v.toNat ≤ 8192 ∧
    v.toNat = chunkBitLength (readWide s ra) 128

/-- R79: ISZERO answers 1 when every chunk is 0 and 0 when some chunk is not. -/
def Obligations.IszeroLooksAtEveryChunk : Prop :=
  ∀ s ra, ∃ t z, exec (.iszero ra) s = .next t ∧ EndsScalar s t z ∧
    ((∀ i, i < 128 → chunkOf s ra i = 0) → z = 1) ∧ ((∃ i, i < 128 ∧ chunkOf s ra i ≠ 0) → z = 0)

/-- The laws over the integers a, b in [0, 2^W) of 40_arithmetic.md section 11: what each arithmetic command gives when it
ends Ok, and exactly when it fails. -/
def Obligations.ArithmeticLawsByValue : Prop :=
  ∀ s rd ra rb,
    (val s ra + val s rb < 2 ^ Config.W → ∃ t x, exec (.add rd ra rb) s = .next t ∧ EndsWide s t rd x ∧
      x.toNat = val s ra + val s rb) ∧
    (2 ^ Config.W ≤ val s ra + val s rb → ∃ t, exec (.add rd ra rb) s = .next t ∧ EndsFailed s t 1) ∧
    (∃ t x, exec (.sub rd ra rb) s = .next t ∧ EndsWide s t rd x ∧
      (x.toNat : Int) = ((val s ra : Int) - val s rb) % 2 ^ Config.W) ∧
    (val s ra * val s rb < 2 ^ Config.W → ∃ t x, exec (.mul rd ra rb) s = .next t ∧ EndsWide s t rd x ∧
      x.toNat = val s ra * val s rb) ∧
    (2 ^ Config.W ≤ val s ra * val s rb → ∃ t, exec (.mul rd ra rb) s = .next t ∧ EndsFailed s t 1) ∧
    (val s rb ≠ 0 → ∃ t x, exec (.div rd ra rb) s = .next t ∧ EndsWide s t rd x ∧
      x.toNat = val s ra / val s rb) ∧
    (val s rb = 0 → ∃ t, exec (.div rd ra rb) s = .next t ∧ EndsFailed s t 2) ∧
    (val s rb ≠ 0 → ∃ t x, exec (.mod rd ra rb) s = .next t ∧ EndsWide s t rd x ∧
      x.toNat = val s ra % val s rb) ∧
    (val s rb = 0 → ∃ t, exec (.mod rd ra rb) s = .next t ∧ EndsFailed s t 2) ∧
    (∃ t c, exec (.cmp ra rb) s = .next t ∧ EndsScalar s t c ∧ (c = 0 ↔ val s ra < val s rb) ∧
      (c = 1 ↔ val s ra = val s rb) ∧ (c = 2 ↔ val s rb < val s ra))

/-- Properties (1), (2), (3) of 40_arithmetic.md section 11: after an ADD that does not overflow, subtracting b again gives
a (whichever register receives it, b's register being intact); the sum compares Greater than a when b is not 0 (a's
register being intact); and the sum is b when a is 0. -/
def Obligations.SubUndoesAdd : Prop :=
  ∀ s rd re ra rb, val s ra + val s rb < 2 ^ Config.W →
    ∃ t, exec (.add rd ra rb) s = .next t ∧ t.status = 0 ∧
      (rd ≠ rb → ∃ u, exec (.sub re rd rb) t = .next u ∧ u.status = 0 ∧ readWide u re = readWide s ra) ∧
      (rd ≠ ra → val s rb ≠ 0 → ∃ u, exec (.cmp rd ra) t = .next u ∧ u.status = 0 ∧ u.result = 2) ∧
      (val s ra = 0 → readWide t rd = readWide s rb)

/-- Property (4): multiplication by one and by zero, and commutativity "including the status" (40_arithmetic.md sections 5
and 11). -/
def Obligations.MulOneZeroCommutes : Prop :=
  ∀ s rd ra rb,
    exec (.mul rd ra rb) s = exec (.mul rd rb ra) s ∧
    (val s rb = 1 → ∃ t, exec (.mul rd ra rb) s = .next t ∧ EndsWide s t rd (readWide s ra)) ∧
    (val s rb = 0 → ∃ t, exec (.mul rd ra rb) s = .next t ∧ EndsWide s t rd 0)

/-- Properties (5) and (6): for a in V0 and b in V1, DIV, MOD, MUL and ADD rebuild a from quotient and remainder with no
Overflow in any step when b is not 0; and SUB followed by ADD of b gives a back when a ≥ b. -/
def Obligations.DivModRebuildsDividend : Prop :=
  (∀ s, val s .v1 ≠ 0 →
    ∃ t1 t2 t3 t4, exec (.div .v2 .v0 .v1) s = .next t1 ∧ exec (.mod .v3 .v0 .v1) t1 = .next t2 ∧
      exec (.mul .v2 .v2 .v1) t2 = .next t3 ∧ exec (.add .v2 .v2 .v3) t3 = .next t4 ∧
      t1.status = 0 ∧ t2.status = 0 ∧ t3.status = 0 ∧ t4.status = 0 ∧ readWide t4 .v2 = readWide s .v0) ∧
  (∀ s rd re ra rb, val s rb ≤ val s ra → rd ≠ rb →
    ∃ t u, exec (.sub rd ra rb) s = .next t ∧ exec (.add re rd rb) t = .next u ∧ t.status = 0 ∧ u.status = 0 ∧
      readWide u re = readWide s ra)

/-- Property (7): CMP answers Equal exactly when SUB gives zero, and ISZERO of that difference answers 1 exactly then. -/
def Obligations.CmpEqualIffSubIsZero : Prop :=
  ∀ s rd ra rb, ∃ t u w, exec (.cmp ra rb) s = .next t ∧ exec (.sub rd ra rb) s = .next u ∧
    exec (.iszero rd) u = .next w ∧ (t.result = 1 ↔ val u rd = 0) ∧ (w.result = 1 ↔ val u rd = 0)

/-! ### The registers as values, chunks, units and bytes -/

/-- The value of a register is the sum of its chunks, every sequence of 128 chunks is exactly one register, and every
integer below 2^W is the value of exactly one (10_state.md section 1). -/
def Obligations.ValueIsSumOfChunks : Prop :=
  (∀ x : Wide, x.toNat = sumChunks (chunk x) 128 ∧ x.toNat < 2 ^ Config.W) ∧
  (∀ w : Nat → Chunk, ∃ x, (∀ i, i < 128 → chunk x i = w i) ∧ ∀ y, (∀ i, i < 128 → chunk y i = w i) → y = x) ∧
  (∀ n, n < 2 ^ Config.W → ∃ x : Wide, x.toNat = n ∧ ∀ y : Wide, y.toNat = n → y = x)

/-- The granularity table of R100 and its closed forms: mode number, unit_bits, unit_count, and the two derived columns. -/
def Obligations.GranularityTable : Prop :=
  (∀ f : BitVec 4, ∀ m, Mode.ofField f = some m ↔ f.toNat = m.number) ∧
  (∀ f : BitVec 4, Mode.ofField f = none ↔ 11 < f.toNat) ∧
  Mode.bit.unitBits = 1 ∧ Mode.bit.unitCount = 8192 ∧
  (∀ m : Mode, 1 ≤ m.number → m.unitBits = 2 ^ (m.number + 1) ∧ m.unitCount = 2 ^ (12 - m.number)) ∧
  (∀ m : Mode, m.unitCount = Config.W / m.unitBits) ∧
  (∀ m : Mode, m.number ≤ 5 → m.upc = Config.C / m.unitBits) ∧
  (∀ m : Mode, 5 ≤ m.number → m.cpu = m.unitBits / Config.C)

/-- Unit placement (20_memory.md sections 2 and 3): bit i of unit k is bit unit_bits*k + i of the register, the units of a
mode tile the register without gap or overlap, and a unit of modes 0 to 5 lies inside one chunk. -/
def Obligations.UnitsTileTheRegister : Prop :=
  (∀ (x : Wide) (m : Mode) (k i : Nat), i < m.unitBits → (unitValue x m k).testBit i = x.getLsbD (m.unitBits * k + i)) ∧
  (∀ (m : Mode) (b : Nat), b < 8192 →
    ∃ k, k < m.unitCount ∧ m.unitBits * k ≤ b ∧ b < m.unitBits * k + m.unitBits ∧
      ∀ k', m.unitBits * k' ≤ b → b < m.unitBits * k' + m.unitBits → k' = k) ∧
  (∀ (m : Mode) (k : Nat), m.isScalar = true → k < m.unitCount →
    unitChunk m k < 128 ∧ 64 * unitChunk m k + unitPos m k = m.unitBits * k ∧ unitPos m k + m.unitBits ≤ 64)

/-- The byte image (20_memory.md section 6): FromBytes undoes ToBytes and ToBytes undoes FromBytes in both orders, byte j of
the little-endian image is the mode-2 unit at offset j, and the big-endian image is its reverse. -/
def Obligations.ByteImageRoundTrip : Prop :=
  (∀ x le, fromBytes (toBytes x le) le = x) ∧ (∀ B le, toBytes (fromBytes B le) le = B) ∧
  (∀ (x : Wide) (j : Nat) (h : j < 1024), ((toBytes x true)[j]).toNat = unitValue x .byte j) ∧
  (∀ (x : Wide) (j : Nat) (h : j < 1024), (toBytes x false)[j] = (toBytes x true)[1023 - j])

/-! ### The index codec -/

/-- R102 and R103: Check answers UnsupportedVersion exactly when the version bit is 1, OutOfRange exactly for version 0 with
reserved bits, a reserved mode or an offset of unit_count or more, and Ok exactly for the valid descriptors. -/
def Obligations.CheckDecidesValidity : Prop :=
  (∀ d, checkDesc d = .error .unsupportedVersion ↔ descVersion d = 1) ∧
  (∀ d, checkDesc d = .error .outOfRange ↔ OutOfRangeDesc d) ∧
  (∀ d m k, checkDesc d = .ok ⟨m, k⟩ ↔ NamesUnit d m k) ∧
  (∀ d, validDesc d = true ↔ ∃ m k, NamesUnit d m k)

/-- The mask rule (41_index_codec.md section 2): the forbidden-bits mask of mode m, bits 15 down to 13 - m, accepts exactly
the offsets below 2^(13-m); the bound of unit_count implies it, and in every mode but 0 it accepts an offset the bound
refuses. -/
def Obligations.MaskRuleIsWeaker : Prop :=
  (∀ (m : Mode) (k : BitVec 16),
    k &&& BitVec.ofNat 16 (2 ^ 16 - 2 ^ (13 - m.number)) = 0 ↔ k.toNat < 2 ^ (13 - m.number)) ∧
  (∀ m : Mode, m.unitCount ≤ 2 ^ (13 - m.number)) ∧
  (∀ m : Mode, 1 ≤ m.number → 2 ^ (13 - m.number) = 2 * m.unitCount)

/-- R60 and R105. R60: an ENCODE packet hands over DATA bits 31:0 as offset, 35:32 as mode, 36 as endianness, 37 as
chunk-select and 38 as sign; bits 63:39 are ignored. R105: ENCODE ends Ok with the descriptor of these fields, version and
reserved bits 0, when the mode is defined and the offset is below unit_count; otherwise InvalidArgument (3). No wide
register is written. -/
def Obligations.EncodeBuildsDescriptor : Prop :=
  (∀ pkt, packetRsv pkt = 0 → packetOpcode pkt = 0x20 → decode pkt = .ok (.encode (encodeParams (packetData pkt)))) ∧
  (∀ data : BitVec 64, (encodeParams data).offset.toNat = data.toNat % 2 ^ 32 ∧
    (encodeParams data).mode.toNat = data.toNat / 2 ^ 32 % 16 ∧ (encodeParams data).le.toNat = data.toNat / 2 ^ 36 % 2 ∧
    (encodeParams data).csel.toNat = data.toNat / 2 ^ 37 % 2 ∧ (encodeParams data).sign.toNat = data.toNat / 2 ^ 38 % 2) ∧
  (∀ data data' : BitVec 64, data.toNat % 2 ^ 39 = data'.toNat % 2 ^ 39 → encodeParams data = encodeParams data') ∧
  ∀ s (p : EncodeParams),
    (∀ m, Mode.ofField p.mode = some m → p.offset.toNat < m.unitCount →
      ∃ t d, exec (.encode p) s = .next t ∧ EndsScalar s t (BitVec.setWidth 64 d) ∧
        descVersion d = 0 ∧ descReserved d = 0 ∧ descMode d = p.mode ∧ descSign d = p.sign ∧ descCsel d = p.csel ∧
        descEndian d = p.le ∧ (descOffset d).toNat = p.offset.toNat) ∧
    (11 < p.mode.toNat → ∃ t, exec (.encode p) s = .next t ∧ EndsFailed s t 3) ∧
    (∀ m, Mode.ofField p.mode = some m → m.unitCount ≤ p.offset.toNat →
      ∃ t, exec (.encode p) s = .next t ∧ EndsFailed s t 3)

/-- R106 with the layout of R61: DECODE ends Ok for every descriptor; its result has the fields at their places, 0 in bits
63:25 and 19, and the descriptor's own bits in 18:0. -/
def Obligations.DecodeReturnsFields : Prop :=
  ∀ s d, ∃ t r, exec (.decode d) s = .next t ∧ EndsScalar s t r ∧
    BitVec.extractLsb' 24 1 r = descVersion d ∧ BitVec.extractLsb' 20 4 r = descMode d ∧ r.getLsbD 19 = false ∧
    BitVec.extractLsb' 18 1 r = descSign d ∧ BitVec.extractLsb' 17 1 r = descCsel d ∧
    BitVec.extractLsb' 16 1 r = descEndian d ∧ BitVec.extractLsb' 0 16 r = descOffset d ∧
    (∀ b, 25 ≤ b → r.getLsbD b = false) ∧ ∀ b, b < 19 → r.getLsbD b = d.getLsbD b

/-- Properties (1) and (2) of 41_index_codec.md section 8: for every parameter word ENCODE accepts, DECODE of its result
returns the same mode, offset and flags and version 0, and VALIDATE of it answers Ok; and every valid descriptor is what
ENCODE returns for exactly one parameter word. -/
def Obligations.EncodeThenDecodeAndValidate : Prop :=
  (∀ s (p : EncodeParams) m, Mode.ofField p.mode = some m → p.offset.toNat < m.unitCount →
    ∃ t u w d, exec (.encode p) s = .next t ∧ t.result = BitVec.setWidth 64 d ∧
      exec (.decode d) t = .next u ∧ u.status = 0 ∧
      BitVec.extractLsb' 24 1 u.result = 0 ∧ BitVec.extractLsb' 20 4 u.result = p.mode ∧
      BitVec.extractLsb' 18 1 u.result = p.sign ∧ BitVec.extractLsb' 17 1 u.result = p.csel ∧
      BitVec.extractLsb' 16 1 u.result = p.le ∧ (BitVec.extractLsb' 0 16 u.result).toNat = p.offset.toNat ∧
      exec (.validate d) u = .next w ∧ w.status = 0) ∧
  (∀ s d m k, NamesUnit d m k →
    ∃ p, (∃ t, exec (.encode p) s = .next t ∧ EndsScalar s t (BitVec.setWidth 64 d)) ∧
      ∀ p' t', exec (.encode p') s = .next t' → EndsScalar s t' (BitVec.setWidth 64 d) → p' = p)

/-- R107: VALIDATE answers the code of Check and writes no wide register: Ok (0), UnsupportedVersion (5), OutOfRange (4). -/
def Obligations.ValidateAnswersCheck : Prop :=
  ∀ s d,
    (∀ m k, NamesUnit d m k → ∃ t, exec (.validate d) s = .next t ∧ EndsScalar s t 0) ∧
    (descVersion d = 1 → ∃ t, exec (.validate d) s = .next t ∧ EndsFailed s t 5) ∧
    (OutOfRangeDesc d → ∃ t, exec (.validate d) s = .next t ∧ EndsFailed s t 4)

/-- R108 (with the value of UnitRead, R34): READ of a valid descriptor gives the unit's value, in RESULT for modes 0 to 5 and in V[rd], zero-extended,
for modes 6 to 11; an invalid descriptor gives its code and touches no register. -/
def Obligations.ReadGivesUnitValue : Prop :=
  ∀ s rd ra d,
    (∀ m k, NamesUnit d m k → m.number ≤ 5 → ∃ t v, exec (.read rd ra d) s = .next t ∧ EndsScalar s t v ∧
      v.toNat = (val s ra >>> (m.unitBits * k)) % 2 ^ m.unitBits) ∧
    (∀ m k, NamesUnit d m k → 6 ≤ m.number → ∃ t x, exec (.read rd ra d) s = .next t ∧ EndsWide s t rd x ∧
      x.toNat = (val s ra >>> (m.unitBits * k)) % 2 ^ m.unitBits) ∧
    (descVersion d = 1 → ∃ t, exec (.read rd ra d) s = .next t ∧ EndsFailed s t 5) ∧
    (OutOfRangeDesc d → ∃ t, exec (.read rd ra d) s = .next t ∧ EndsFailed s t 4)

/-- R109: READ of modes 0 to 5 gives (V[ra].w[ci] >> pos) mod 2^u with ci = k div upc and pos = (k mod upc) * u; of mode 5
the whole chunk k. -/
def Obligations.ReadScalarFromChunk : Prop :=
  ∀ s rd ra d m k, NamesUnit d m k → m.number ≤ 5 →
    ∃ t v, exec (.read rd ra d) s = .next t ∧ EndsScalar s t v ∧
      v.toNat = (chunkOf s ra (k / m.upc) >>> (k % m.upc * m.unitBits)) % 2 ^ m.unitBits ∧
      (m = .qword → v = chunk (readWide s ra) k)

/-- R110: READ of modes 6 to 11 copies chunks n*k to n*k + n-1 of the store to chunks 0 to n-1 of V[rd] and clears the
chunks above, also when rd = ra. -/
def Obligations.ReadSubIntegerCopiesChunks : Prop :=
  ∀ s rd ra d m k, NamesUnit d m k → 6 ≤ m.number →
    ∃ t x, exec (.read rd ra d) s = .next t ∧ EndsWide s t rd x ∧
      (∀ j, j < m.cpu → chunk x j = chunk (readWide s ra) (m.cpu * k + j)) ∧
      (∀ j, m.cpu ≤ j → j < 128 → chunk x j = 0)

/-- R111: WRITE of a valid descriptor replaces exactly the unit's bits by the value masked to the unit (DATA for
modes 0 to 5, V[ra] for modes 6 to 11), every other bit of V[rd] keeping its value; an invalid descriptor gives its code
and touches no register. -/
def Obligations.WriteReplacesExactlyTheUnit : Prop :=
  ∀ s rd ra d v,
    (∀ m k, NamesUnit d m k → ∃ t x, exec (.write rd ra d v) s = .next t ∧ EndsWide s t rd x ∧
      unitValue x m k = (if m.number ≤ 5 then v.toNat else val s ra) % 2 ^ m.unitBits ∧
      ∀ b, ¬(m.unitBits * k ≤ b ∧ b < m.unitBits * k + m.unitBits) → x.getLsbD b = (readWide s rd).getLsbD b) ∧
    (descVersion d = 1 → ∃ t, exec (.write rd ra d v) s = .next t ∧ EndsFailed s t 5) ∧
    (OutOfRangeDesc d → ∃ t, exec (.write rd ra d v) s = .next t ∧ EndsFailed s t 4)

/-- R112, and the mode 5 line of R111: WRITE of modes 0 to 4 is a read-modify-write of chunk ci under the unit's mask, of mode 5 it stores all 64
bits of DATA to chunk k; every other chunk is unchanged. -/
def Obligations.WriteScalarIsMaskedStore : Prop :=
  ∀ s rd ra d v m k, NamesUnit d m k → m.number ≤ 5 →
    ∃ t x, exec (.write rd ra d v) s = .next t ∧ EndsWide s t rd x ∧
      (m.number ≤ 4 →
        chunk x (k / m.upc) =
          (chunk (readWide s rd) (k / m.upc) &&& ~~~(BitVec.ofNat 64 (2 ^ m.unitBits - 1) <<< (k % m.upc * m.unitBits)))
            ||| (BitVec.ofNat 64 (v.toNat % 2 ^ m.unitBits) <<< (k % m.upc * m.unitBits))) ∧
      (m.number = 5 → chunk x k = v) ∧
      ∀ i, i < 128 → i ≠ k / m.upc → chunk x i = chunk (readWide s rd) i

/-- R114: WRITE of modes 6 to 11 stores the low n chunks of V[ra] to chunks n*k to n*k + n-1 of V[rd], also when rd = ra, and
leaves every other chunk. -/
def Obligations.WriteSubIntegerCopiesChunks : Prop :=
  ∀ s rd ra d v m k, NamesUnit d m k → 6 ≤ m.number →
    ∃ t x, exec (.write rd ra d v) s = .next t ∧ EndsWide s t rd x ∧
      (∀ j, j < m.cpu → chunk x (m.cpu * k + j) = chunk (readWide s ra) j) ∧
      (∀ i, i < 128 → ¬(m.cpu * k ≤ i ∧ i < m.cpu * k + m.cpu) → chunk x i = chunk (readWide s rd) i)

/-- After a WRITE that ends Ok, every unit of every mode whose bit range is disjoint from the one written reads as before
(20_memory.md section 2). -/
def Obligations.DisjointUnitsReadAsBefore : Prop :=
  ∀ s t rd ra d v m k m' k', NamesUnit d m k → k' < m'.unitCount →
    (m.unitBits * k + m.unitBits ≤ m'.unitBits * k' ∨ m'.unitBits * k' + m'.unitBits ≤ m.unitBits * k) →
    exec (.write rd ra d v) s = .next t → unitValue (readWide t rd) m' k' = unitValue (readWide s rd) m' k'

/-- Property (6) of 41_index_codec.md section 8: READ of the same register with the same descriptor after an Ok WRITE
returns the value written, masked to the unit. -/
def Obligations.ReadAfterWriteReturnsValue : Prop :=
  ∀ s rd ra re d v m k, NamesUnit d m k →
    ∃ t u, exec (.write rd ra d v) s = .next t ∧ exec (.read re rd d) t = .next u ∧ t.status = 0 ∧ u.status = 0 ∧
      (m.number ≤ 5 → u.result.toNat = v.toNat % 2 ^ m.unitBits) ∧
      (6 ≤ m.number → val u re = val s ra % 2 ^ m.unitBits)

/-- The corner case of 41_index_codec.md section 7: READ of a sub-integer into another register followed by WRITE of it to
the same unit of the same store changes nothing of the store. -/
def Obligations.WriteBackChangesNothing : Prop :=
  ∀ s rx rs d m k, NamesUnit d m k → 6 ≤ m.number → rx ≠ rs →
    ∃ t u, exec (.read rx rs d) s = .next t ∧ exec (.write rs rx d 0) t = .next u ∧ t.status = 0 ∧ u.status = 0 ∧
      readWide u rs = readWide s rs

/-- R116: two descriptors that differ only in the sign, chunk-select and endianness bits are interchangeable for VALIDATE,
READ and WRITE. -/
def Obligations.FlagBitsAreIgnored : Prop :=
  ∀ s rd ra d d' v, SameButFlags d d' →
    exec (.validate d) s = exec (.validate d') s ∧ exec (.read rd ra d) s = exec (.read rd ra d') s ∧
    exec (.write rd ra d v) s = exec (.write rd ra d' v) s

/-! ### Whole-machine rules -/

/-- R133: whatever the command and the state, a command that ends with a non-zero STATUS wrote no wide register, left RESULT
0 and touched nothing else, and its code is one of the error kinds' codes 1 to 5; the engine is at once ready for the next
command, and so it is after a packet that spells no command. -/
def Obligations.FailureIsPrecise : Prop :=
  (∀ i s t, exec i s = .next t → t.status ≠ 0 → EndsFailed s t t.status ∧ 1 ≤ t.status.toNat ∧ t.status.toNat ≤ 5) ∧
  (∀ s t p, (portIn s).rst = false → s.taken = some p → step s = .next t → t.status ≠ 0 →
    KeepsWide s t ∧ t.result = 0 ∧ t.status.toNat ≤ 6 ∧ cmdReady t = true ∧ portRspValid t = true)

/-- Each command ends, and with no code but the ones listed for it (60_exceptions.md section 1). -/
def Obligations.StatusIsOneOfTheListed : Prop :=
  ∀ i s, ∃ t, exec i s = .next t ∧ t.status ∈ possibleStatus i

/-- No command writes a wide register other than its destination (10_state.md section 1). That no command touches the
handshake and the host's input, which the model holds in State by its own choice, is stated with it (log entries 1 and 2). -/
def Obligations.OnlyDestinationIsWritten : Prop :=
  ∀ i s t, exec i s = .next t → SameShell s t ∧ ∀ r, destOf i ≠ some r → readWide t r = readWide s r

/-- No command reads STATUS or RESULT: a command runs exactly the same whatever the one before it left there
(10_state.md section 3; 60_exceptions.md section 3). -/
def Obligations.OldResponseIsNeverRead : Prop :=
  ∀ i s status result, exec i { s with status := status, result := result } = exec i s

/-- The assembler (30_encoding.md section 6): every line in its own form stands for a canonical command, every canonical
command whose descriptor has a defined mode is written by a line, and the pseudo-instructions are their expansions. -/
def Obligations.AssemblerWritesCanonical : Prop :=
  (∀ a : AsmLine, a.legal = true → WellFormed (assemble a)) ∧
  (∀ i : Instr, WellFormed i → (∀ rd ra d, i = .read rd ra d → (descMode d).toNat ≤ 11) →
    (∀ rd ra d v, i = .write rd ra d v → (descMode d).toNat ≤ 11) → ∃ a : AsmLine, a.legal = true ∧ assemble a = i) ∧
  (∀ va vb, assemble (.adda va vb) = .add va va vb ∧ assemble (.suba va vb) = .sub va va vb ∧
    assemble (.mula va vb) = .mul va va vb ∧ assemble (.diva va vb) = .div va va vb ∧
    assemble (.moda va vb) = .mod va va vb) ∧
  (∀ vd, assemble (.clr vd) = .init vd 0)

/-! ### A program of the codec -/

/-- Property (5) of 41_index_codec.md section 8, as 95_test_vectors.md E6 runs it: reading every unit of a mode from 6 to 11
out of a store and writing each to the same place of a cleared register rebuilds the store, for any three different
registers; the last command ends Ok and the store itself is as before. -/
def Obligations.DecompositionRoundTrip : Prop :=
  ∀ s (m : Mode) (store part copy : WReg), 6 ≤ m.number → store ≠ part → store ≠ copy → part ≠ copy →
    ∃ t, runCommands (reassembly m store part copy m.unitCount) s = .next t ∧ t.status = 0 ∧ t.result = 0 ∧
      readWide t copy = readWide s store ∧ readWide t store = readWide s store
end

