-- ==== Sys2Proof/Laws/State.lean ====
section
/-! SUPPORT. One lemma per field per shared update of the state, so that no later proof unfolds a record update. -/

namespace Sys2Proof.Machine

variable (s : State) (r r' rd : WReg) (x : Wide) (v : BitVec 64) (e : ErrorKind) (p : Packet)

/-! ### writeWide -/

@[simp] theorem readWide_writeWide : readWide (writeWide s r x) r' = if r' = r then x else readWide s r' := by
  cases r <;> cases r' <;> rfl

@[simp] theorem writeWide_status : (writeWide s r x).status = s.status := by cases r <;> rfl
@[simp] theorem writeWide_result : (writeWide s r x).result = s.result := by cases r <;> rfl
@[simp] theorem writeWide_taken : (writeWide s r x).taken = s.taken := by cases r <;> rfl
@[simp] theorem writeWide_rspValid : (writeWide s r x).rspValid = s.rspValid := by cases r <;> rfl
@[simp] theorem writeWide_host : (writeWide s r x).host = s.host := by cases r <;> rfl

/-! ### succeed -/

@[simp] theorem readWide_succeed : readWide (succeed v s) r = readWide s r := by cases r <;> rfl
@[simp] theorem succeed_status : (succeed v s).status = 0 := rfl
@[simp] theorem succeed_result : (succeed v s).result = v := rfl
@[simp] theorem succeed_taken : (succeed v s).taken = s.taken := rfl
@[simp] theorem succeed_rspValid : (succeed v s).rspValid = s.rspValid := rfl
@[simp] theorem succeed_host : (succeed v s).host = s.host := rfl

/-! ### raise -/

@[simp] theorem readWide_raise : readWide (raise e s) r = readWide s r := by cases r <;> rfl
@[simp] theorem raise_status : (raise e s).status = e.code := rfl
@[simp] theorem raise_result : (raise e s).result = 0 := rfl
@[simp] theorem raise_taken : (raise e s).taken = s.taken := rfl
@[simp] theorem raise_rspValid : (raise e s).rspValid = s.rspValid := rfl
@[simp] theorem raise_host : (raise e s).host = s.host := rfl

/-! ### advanceHost -/

@[simp] theorem readWide_advanceHost : readWide (advanceHost s) r = readWide s r := by cases r <;> rfl
@[simp] theorem advanceHost_status : (advanceHost s).status = s.status := rfl
@[simp] theorem advanceHost_result : (advanceHost s).result = s.result := rfl
@[simp] theorem advanceHost_taken : (advanceHost s).taken = s.taken := rfl
@[simp] theorem advanceHost_rspValid : (advanceHost s).rspValid = s.rspValid := rfl
@[simp] theorem advanceHost_host : (advanceHost s).host = s.host.tail := rfl

/-! ### takePacket -/

@[simp] theorem readWide_takePacket : readWide (takePacket p s) r = readWide s r := by cases r <;> rfl
@[simp] theorem takePacket_status : (takePacket p s).status = s.status := rfl
@[simp] theorem takePacket_result : (takePacket p s).result = s.result := rfl
@[simp] theorem takePacket_taken : (takePacket p s).taken = some p := rfl
@[simp] theorem takePacket_rspValid : (takePacket p s).rspValid = false := rfl
@[simp] theorem takePacket_host : (takePacket p s).host = s.host.tail := rfl

/-! ### endCommand -/

@[simp] theorem readWide_endCommand : readWide (endCommand s) r = readWide s r := by cases r <;> rfl
@[simp] theorem endCommand_status : (endCommand s).status = s.status := rfl
@[simp] theorem endCommand_result : (endCommand s).result = s.result := rfl
@[simp] theorem endCommand_taken : (endCommand s).taken = none := rfl
@[simp] theorem endCommand_rspValid : (endCommand s).rspValid = true := rfl
@[simp] theorem endCommand_host : (endCommand s).host = s.host.tail := rfl

/-! ### applyReset and reset -/

@[simp] theorem readWide_reset : readWide State.reset r = 0 := by cases r <;> rfl
@[simp] theorem readWide_applyReset : readWide (applyReset s) r = 0 := by cases r <;> rfl
@[simp] theorem applyReset_status : (applyReset s).status = 0 := rfl
@[simp] theorem applyReset_result : (applyReset s).result = 0 := rfl
@[simp] theorem applyReset_taken : (applyReset s).taken = none := rfl
@[simp] theorem applyReset_rspValid : (applyReset s).rspValid = false := rfl
@[simp] theorem applyReset_host : (applyReset s).host = s.host.tail := rfl

/-! ### Codes and ports -/

theorem code_ne_zero (e : ErrorKind) : e.code ≠ 0 := by cases e <;> decide
theorem code_le_six (e : ErrorKind) : e.code.toNat ≤ 6 := by cases e <;> decide

@[simp] theorem cmdReady_eq : cmdReady s = s.taken.isNone := rfl
@[simp] theorem portRspValid_eq : portRspValid s = s.rspValid := rfl

theorem wreg_forall {P : WReg → Prop} (h0 : P .v0) (h1 : P .v1) (h2 : P .v2) (h3 : P .v3) : ∀ r, P r
  | .v0 => h0
  | .v1 => h1
  | .v2 => h2
  | .v3 => h3

/-- Two states with the same registers, scalars and shell are the same state. -/
theorem state_ext {s t : State} (hw : KeepsWide s t) (h1 : t.status = s.status) (h2 : t.result = s.result)
    (h3 : SameShell s t) : t = s := by
  obtain ⟨h3, h4, h5⟩ := h3
  have w0 := hw .v0
  have w1 := hw .v1
  have w2 := hw .v2
  have w3 := hw .v3
  cases s
  cases t
  simp_all [readWide]

end Sys2Proof.Machine
end

