-- ==== Sys2Proof/Laws/Chunks.lean ====
section
/-! SUPPORT. The laws of the chunk view of a wide register: reading a chunk after building or writing, and R11's `val`. -/

namespace Sys2Proof.Machine

theorem chunk_toNat (x : Wide) (i : Nat) : (chunk x i).toNat = x.toNat / 2 ^ (64 * i) % 2 ^ 64 := by
  simp [chunk, BitVec.extractLsb'_toNat, Nat.shiftRight_eq_div_pow]

theorem getLsbD_chunk (x : Wide) (i b : Nat) : (chunk x i).getLsbD b = (decide (b < 64) && x.getLsbD (64 * i + b)) := by
  simp [chunk]

/-- A bit of the register is a bit of its chunk (20_memory.md R31). -/
theorem getLsbD_eq_chunk (x : Wide) (b : Nat) : x.getLsbD b = (chunk x (b / 64)).getLsbD (b % 64) := by
  rw [getLsbD_chunk, Nat.div_add_mod]
  simp [Nat.mod_lt]

theorem sumChunks_lt (w : Nat → Chunk) (n : Nat) : sumChunks w n < 2 ^ (64 * n) := by
  induction n with
  | zero => simp [sumChunks]
  | succ n ih =>
    have h := (w n).isLt
    have hp : (2 : Nat) ^ (64 * (n + 1)) = 2 ^ 64 * 2 ^ (64 * n) := by rw [← Nat.pow_add]; congr 1; omega
    rw [sumChunks, hp]
    calc sumChunks w n + (w n).toNat * 2 ^ (64 * n)
        < 2 ^ (64 * n) + (w n).toNat * 2 ^ (64 * n) := by omega
      _ = ((w n).toNat + 1) * 2 ^ (64 * n) := by ring
      _ ≤ 2 ^ 64 * 2 ^ (64 * n) := Nat.mul_le_mul_right _ h

/-- The first n chunks sum to the value modulo 2^(64n) (R11). -/
theorem sumChunks_chunk (x : Wide) (n : Nat) : sumChunks (chunk x) n = x.toNat % 2 ^ (64 * n) := by
  induction n with
  | zero => simp [sumChunks, Nat.mod_one]
  | succ n ih =>
    have hp : (2 : Nat) ^ (64 * (n + 1)) = 2 ^ (64 * n) * 2 ^ 64 := by rw [← Nat.pow_add]; congr 1
    rw [sumChunks, ih, chunk_toNat, hp, Nat.mod_mul, Nat.mul_comm (_ % 2 ^ 64)]

theorem sumChunks_congr {w w' : Nat → Chunk} {n : Nat} (h : ∀ i, i < n → w i = w' i) : sumChunks w n = sumChunks w' n := by
  induction n with
  | zero => rfl
  | succ n ih => rw [sumChunks, sumChunks, ih fun i hi => h i (by omega), h n (by omega)]

/-- The chunks of a sum are its terms. -/
theorem sumChunks_div_mod (w : Nat → Chunk) {i n : Nat} (h : i < n) :
    sumChunks w n / 2 ^ (64 * i) % 2 ^ 64 = (w i).toNat := by
  induction n with
  | zero => omega
  | succ n ih =>
    rw [sumChunks]
    rcases Nat.lt_succ_iff_lt_or_eq.mp h with hi | rfl
    · have hp : (2 : Nat) ^ (64 * n) = 2 ^ (64 * i) * (2 ^ 64 * 2 ^ (64 * (n - i - 1))) := by
        rw [← Nat.pow_add, ← Nat.pow_add]
        congr 1
        omega
      rw [hp, show (w n).toNat * (2 ^ (64 * i) * (2 ^ 64 * 2 ^ (64 * (n - i - 1))))
          = 2 ^ (64 * i) * (2 ^ 64 * ((w n).toNat * 2 ^ (64 * (n - i - 1)))) by ring,
        Nat.add_mul_div_left _ _ (Nat.two_pow_pos _), Nat.add_mul_mod_self_left]
      exact ih hi
    · rw [Nat.add_mul_div_right _ _ (Nat.two_pow_pos _), Nat.div_eq_of_lt (sumChunks_lt w i), Nat.zero_add,
        Nat.mod_eq_of_lt (w i).isLt]

theorem sumChunks_lt_W (w : Nat → Chunk) : sumChunks w 128 < 2 ^ 8192 := by
  have h := sumChunks_lt w 128
  rwa [show 64 * 128 = 8192 from rfl] at h

/-- All 128 chunks sum to the value (R11). -/
theorem sumChunks_all (x : Wide) : sumChunks (chunk x) 128 = x.toNat := by
  rw [sumChunks_chunk, show 64 * 128 = 8192 from rfl, Nat.mod_eq_of_lt x.isLt]

theorem toNat_ofChunks (w : Nat → Chunk) : (ofChunks w).toNat = sumChunks w 128 := by
  rw [ofChunks, BitVec.toNat_ofNat, Nat.mod_eq_of_lt (sumChunks_lt_W w)]

/-- Reading a chunk of a register built from chunks. -/
theorem chunk_ofChunks (w : Nat → Chunk) {i : Nat} (h : i < 128) : chunk (ofChunks w) i = w i := by
  apply BitVec.eq_of_toNat_eq
  rw [chunk_toNat, toNat_ofChunks, sumChunks_div_mod w h]

/-- A register is its 128 chunks (R11: `val` is a bijection). -/
theorem wide_ext {x y : Wide} (h : ∀ i, i < 128 → chunk x i = chunk y i) : x = y := by
  apply BitVec.eq_of_toNat_eq
  rw [← sumChunks_all x, ← sumChunks_all y]
  exact sumChunks_congr h

theorem ofChunks_chunk (x : Wide) : ofChunks (chunk x) = x := wide_ext fun _ hi => chunk_ofChunks _ hi

/-- Reading a chunk after writing one. -/
theorem chunk_setChunk (x : Wide) (c : Chunk) {i j : Nat} (h : j < 128) :
    chunk (setChunk x i c) j = if j = i then c else chunk x j := by
  rw [setChunk, chunk_ofChunks _ h]

theorem toNat_ofValue {n : Nat} (h : n < 2 ^ 8192) : (ofValue n).toNat = n := by
  rw [ofValue, BitVec.toNat_ofNat, Nat.mod_eq_of_lt h]

theorem ofValue_toNat (x : Wide) : ofValue x.toNat = x := BitVec.eq_of_toNat_eq (toNat_ofValue x.isLt)

theorem chunk_ofValue (n : Nat) {i : Nat} (h : n < 2 ^ 8192) : (chunk (ofValue n) i).toNat = n / 2 ^ (64 * i) % 2 ^ 64 := by
  rw [chunk_toNat, toNat_ofValue h]

end Sys2Proof.Machine
end

