-- ==== Sys2Proof/Laws/Arithmetic.lean ====
section
/-! SUPPORT. One spec lemma per arithmetic function of Machine/Flags.lean and Machine/ChunkStore.lean: the chunk loops in
terms of values. -/

namespace Sys2Proof.Machine

theorem pow_chunk_succ (n : Nat) : (2 : Nat) ^ (64 * (n + 1)) = 2 ^ (64 * n) * 2 ^ 64 := by
  rw [← Nat.pow_add]
  congr 1

/-- The next chunk extends the value of the chunks below it. -/
theorem mod_chunk_succ (x : Wide) (n : Nat) :
    x.toNat % 2 ^ (64 * (n + 1)) = x.toNat % 2 ^ (64 * n) + (chunk x n).toNat * 2 ^ (64 * n) := by
  rw [← sumChunks_chunk, ← sumChunks_chunk, sumChunks]

theorem mod_W (x : Wide) : x.toNat % 2 ^ (64 * 128) = x.toNat := by
  rw [← sumChunks_chunk, sumChunks_all]

/-! ### ADD -/

/-- The loop invariant of R72: stored chunks plus carry is the sum of the chunks read. -/
theorem addLoop_value (a b : Wide) (n : Nat) :
    (addLoop a b n).1 + (addLoop a b n).2.toNat * 2 ^ (64 * n) = a.toNat % 2 ^ (64 * n) + b.toNat % 2 ^ (64 * n) ∧
      (addLoop a b n).1 < 2 ^ (64 * n) := by
  induction n with
  | zero => simp [addLoop, Nat.mod_one]
  | succ n ih =>
    obtain ⟨h1, h2⟩ := ih
    rw [mod_chunk_succ, mod_chunk_succ, pow_chunk_succ, addLoop]
    rcases hl : addLoop a b n with ⟨t, c⟩
    rw [hl] at h1 h2
    simp only at h1 h2 ⊢
    generalize hS : (chunk a n).toNat + (chunk b n).toNat + c.toNat = S
    have hSlt : S < 2 ^ 64 * 2 := by
      have := (chunk a n).isLt
      have := (chunk b n).isLt
      have := Bool.toNat_le c
      omega
    have hdiv : (decide (2 ^ 64 ≤ S)).toNat = S / 2 ^ 64 := by
      by_cases h : 2 ^ 64 ≤ S
      · simp only [h, decide_true, Bool.toNat_true]; omega
      · simp only [h, decide_false, Bool.toNat_false]; omega
    have hsplit : S % 2 ^ 64 + S / 2 ^ 64 * 2 ^ 64 = S := by omega
    rw [hdiv]
    refine ⟨?_, ?_⟩
    · calc t + S % 2 ^ 64 * 2 ^ (64 * n) + S / 2 ^ 64 * (2 ^ (64 * n) * 2 ^ 64)
          = t + (S % 2 ^ 64 + S / 2 ^ 64 * 2 ^ 64) * 2 ^ (64 * n) := by ring
        _ = (t + c.toNat * 2 ^ (64 * n)) + ((chunk a n).toNat + (chunk b n).toNat) * 2 ^ (64 * n) := by
          rw [hsplit, ← hS]; ring
        _ = _ := by rw [h1]; ring
    · have hm : S % 2 ^ 64 + 1 ≤ 2 ^ 64 := Nat.mod_lt _ (by decide)
      clear h1
      generalize S % 2 ^ 64 = m at *
      generalize 2 ^ (64 * n) = p at *
      calc t + m * p < (m + 1) * p := by rw [Nat.add_one_mul]; omega
        _ ≤ 2 ^ 64 * p := Nat.mul_le_mul_right _ hm
        _ = _ := Nat.mul_comm _ _

/-- ADD by value (R72): the sum, or Overflow when it does not fit. -/
theorem addWide_eq (a b : Wide) :
    addWide a b = if a.toNat + b.toNat < 2 ^ 8192 then .ok (ofValue (a.toNat + b.toNat)) else .error .overflow := by
  obtain ⟨h1, h2⟩ := addLoop_value a b 128
  rw [mod_W, mod_W] at h1
  rw [show 64 * 128 = 8192 from rfl] at h1 h2
  rw [addWide]
  rcases hl : addLoop a b 128 with ⟨t, c⟩
  rw [hl] at h1 h2
  simp only at h1 h2 ⊢
  generalize 2 ^ 8192 = B at h1 h2 ⊢
  cases c with
  | false =>
    simp only [Bool.toNat_false, Nat.zero_mul, Nat.add_zero] at h1
    rw [← h1, if_pos h2]
    simp
  | true =>
    simp only [Bool.toNat_true, Nat.one_mul] at h1
    rw [if_neg (show ¬ a.toNat + b.toNat < B by omega)]
    simp

/-! ### SUB -/

/-- The loop invariant of R73: the chunks read of b plus the chunks stored are the chunks read of a plus the borrow. -/
theorem subLoop_value (a b : Wide) (n : Nat) :
    (subLoop a b n).1 + b.toNat % 2 ^ (64 * n) = a.toNat % 2 ^ (64 * n) + (subLoop a b n).2.toNat * 2 ^ (64 * n) ∧
      (subLoop a b n).1 < 2 ^ (64 * n) := by
  induction n with
  | zero => simp [subLoop, Nat.mod_one]
  | succ n ih =>
    obtain ⟨h1, h2⟩ := ih
    rw [mod_chunk_succ, mod_chunk_succ, pow_chunk_succ, subLoop]
    rcases hl : subLoop a b n with ⟨t, c⟩
    rw [hl] at h1 h2
    simp only at h1 h2 ⊢
    have ha := (chunk a n).isLt
    have hb := (chunk b n).isLt
    have hc := Bool.toNat_le c
    generalize (chunk a n).toNat = A at *
    generalize (chunk b n).toNat = D at *
    generalize c.toNat = e at *
    generalize 2 ^ (64 * n) = p at *
    split
    · rename_i hlt
      obtain ⟨k, hk⟩ : ∃ k, A + 2 ^ 64 - (D + e) = k := ⟨_, rfl⟩
      have hk' : k + D + e = A + 2 ^ 64 := by omega
      have hk64 : k + 1 ≤ 2 ^ 64 := by omega
      simp only [hk, Bool.toNat_true]
      refine ⟨?_, ?_⟩
      · have : (k + D + e) * p = (A + 2 ^ 64) * p := by rw [hk']
        linarith [this, h1, Nat.add_mul (k + D) e p, Nat.add_mul k D p, Nat.add_mul A (2 ^ 64) p, Nat.mul_comm p (2 ^ 64)]
      · calc t + k * p < (k + 1) * p := by rw [Nat.add_one_mul]; omega
          _ ≤ 2 ^ 64 * p := Nat.mul_le_mul_right _ hk64
          _ = _ := Nat.mul_comm _ _
    · rename_i hge
      obtain ⟨k, hk⟩ : ∃ k, A - (D + e) = k := ⟨_, rfl⟩
      have hk' : k + D + e = A := by omega
      have hk64 : k + 1 ≤ 2 ^ 64 := by omega
      simp only [hk, Bool.toNat_false]
      refine ⟨?_, ?_⟩
      · have : (k + D + e) * p = A * p := by rw [hk']
        linarith [this, h1, Nat.add_mul (k + D) e p, Nat.add_mul k D p]
      · calc t + k * p < (k + 1) * p := by rw [Nat.add_one_mul]; omega
          _ ≤ 2 ^ 64 * p := Nat.mul_le_mul_right _ hk64
          _ = _ := Nat.mul_comm _ _

/-- SUB by value (R73): the difference modulo 2^W. -/
theorem subWide_toNat (a b : Wide) : (subWide a b).toNat = (a.toNat + (2 ^ 8192 - b.toNat)) % 2 ^ 8192 := by
  obtain ⟨h1, h2⟩ := subLoop_value a b 128
  rw [mod_W, mod_W] at h1
  rw [show 64 * 128 = 8192 from rfl] at h1 h2
  rw [subWide, toNat_ofValue h2]
  have ha := a.isLt
  have hb := b.isLt
  generalize (2 : Nat) ^ 8192 = B at *
  cases hc : (subLoop a b 128).2 with
  | false =>
    rw [hc] at h1
    simp only [Bool.toNat_false, Nat.zero_mul, Nat.add_zero] at h1
    rw [show a.toNat + (B - b.toNat) = (subLoop a b 128).1 + B by omega, Nat.add_mod_right, Nat.mod_eq_of_lt h2]
  | true =>
    rw [hc] at h1
    simp only [Bool.toNat_true, Nat.one_mul] at h1
    rw [show a.toNat + (B - b.toNat) = (subLoop a b 128).1 by omega, Nat.mod_eq_of_lt h2]

/-- SUB is subtraction of 8192-bit numbers. -/
theorem subWide_eq (a b : Wide) : subWide a b = a - b := by
  apply BitVec.eq_of_toNat_eq
  rw [subWide_toNat, BitVec.toNat_sub, Nat.add_comm]

/-! ### CMP, ISZERO, BITLEN -/

/-- CMP by value (R77): the first differing chunk from the top decides the order of the sums. -/
theorem compareChunks_eq (a b : Wide) (n : Nat) :
    compareChunks a b n = compare (a.toNat % 2 ^ (64 * n)) (b.toNat % 2 ^ (64 * n)) := by
  induction n with
  | zero => simp [compareChunks, Nat.mod_one]
  | succ n ih =>
    rw [mod_chunk_succ, mod_chunk_succ, compareChunks, ih]
    have ha : a.toNat % 2 ^ (64 * n) < 2 ^ (64 * n) := Nat.mod_lt _ (Nat.two_pow_pos _)
    have hb : b.toNat % 2 ^ (64 * n) < 2 ^ (64 * n) := Nat.mod_lt _ (Nat.two_pow_pos _)
    generalize (chunk a n).toNat = A
    generalize (chunk b n).toNat = D
    generalize 2 ^ (64 * n) = p at *
    have key : ∀ {x y u v : Nat}, x < p → u < v → x + u * p < y + v * p := by
      intro x y u v hx huv
      have : (u + 1) * p ≤ v * p := Nat.mul_le_mul_right _ huv
      rw [Nat.add_one_mul] at this
      omega
    split
    · rename_i h
      symm
      rw [Nat.compare_eq_gt]
      exact key hb h
    · split
      · rename_i h
        symm
        rw [Nat.compare_eq_lt]
        exact key ha h
      · have : A = D := by omega
        subst this
        rw [Nat.compare_eq_ite_lt, Nat.compare_eq_ite_lt]
        simp only [Nat.add_lt_add_iff_right]

theorem compareChunks_all (a b : Wide) : compareChunks a b 128 = compare a.toNat b.toNat := by
  rw [compareChunks_eq, mod_W, mod_W]

/-- ISZERO looks at every chunk (R79). -/
theorem zeroChunks_iff (a : Wide) (n : Nat) : zeroChunks a n = true ↔ ∀ i, i < n → chunk a i = 0 := by
  induction n with
  | zero => simp [zeroChunks]
  | succ n ih =>
    rw [zeroChunks, Bool.and_eq_true, ih, beq_iff_eq]
    constructor
    · rintro ⟨h, h'⟩ i hi
      rcases Nat.lt_succ_iff_lt_or_eq.mp hi with hi | rfl
      · exact h i hi
      · exact h'
    · intro h
      exact ⟨fun i hi => h i (by omega), h n (by omega)⟩

/-- A register is zero exactly when every chunk is (R79). -/
theorem zeroChunks_all (a : Wide) : zeroChunks a 128 = decide (a = 0) := by
  rw [Bool.eq_iff_iff, zeroChunks_iff, decide_eq_true_eq]
  constructor
  · intro h
    refine wide_ext fun i hi => ?_
    rw [h i hi]
    simp [chunk]
  · rintro rfl i -
    simp [chunk]

/-- The bit length is the least L with `n < 2^L` (R78). -/
theorem bitLength_le_iff (n L : Nat) : bitLength n ≤ L ↔ n < 2 ^ L := by
  unfold bitLength
  split
  · subst_vars; simp
  · rename_i h
    rw [← Nat.log2_lt h]
    omega

theorem bitLength_wide_le (x : Wide) : bitLength x.toNat ≤ 8192 := (bitLength_le_iff _ _).mpr x.isLt

end Sys2Proof.Machine
end

