-- ==== Sys2Proof/Laws/Bytes.lean ====
section
/-! SUPPORT. The laws of the byte image (20_memory.md R40, R41): what a sum of bytes is, and its bytes. -/

namespace Sys2Proof.Machine

/-- A byte of the image is a base-256 digit of the value. -/
theorem toBytes_toNat (x : Wide) (le : Bool) {j : Nat} (h : j < 1024) :
    ((toBytes x le)[j]).toNat = x.toNat / 2 ^ bytePos le j % 2 ^ 8 := by
  rw [toBytes, Vector.getElem_ofFn, BitVec.toNat_ofNat, Nat.shiftRight_eq_div_pow]

theorem sumBytes_lt (B : Nat → Byte) (n : Nat) : sumBytes B true n < 2 ^ (8 * n) := by
  induction n with
  | zero => simp [sumBytes]
  | succ n ih =>
    have h := (B n).isLt
    have hp : (2 : Nat) ^ (8 * (n + 1)) = 2 ^ 8 * 2 ^ (8 * n) := by rw [← Nat.pow_add]; congr 1; omega
    rw [sumBytes, hp]
    calc sumBytes B true n + (B n).toNat * 2 ^ (8 * n)
        < 2 ^ (8 * n) + (B n).toNat * 2 ^ (8 * n) := by omega
      _ = ((B n).toNat + 1) * 2 ^ (8 * n) := by ring
      _ ≤ 2 ^ 8 * 2 ^ (8 * n) := Nat.mul_le_mul_right _ h

/-- The bytes of a sum are its terms. -/
theorem sumBytes_digit (B : Nat → Byte) {i n : Nat} (h : i < n) :
    sumBytes B true n / 2 ^ (8 * i) % 2 ^ 8 = (B i).toNat := by
  induction n with
  | zero => omega
  | succ n ih =>
    rw [sumBytes]
    show (_ + (B n).toNat * 2 ^ (8 * n)) / _ % _ = _
    rcases Nat.lt_succ_iff_lt_or_eq.mp h with hi | rfl
    · have hp : (2 : Nat) ^ (8 * n) = 2 ^ (8 * i) * (2 ^ 8 * 2 ^ (8 * (n - i - 1))) := by
        rw [← Nat.pow_add, ← Nat.pow_add]
        congr 1
        omega
      rw [hp, show (B n).toNat * (2 ^ (8 * i) * (2 ^ 8 * 2 ^ (8 * (n - i - 1))))
          = 2 ^ (8 * i) * (2 ^ 8 * ((B n).toNat * 2 ^ (8 * (n - i - 1)))) by ring,
        Nat.add_mul_div_left _ _ (Nat.two_pow_pos _), Nat.add_mul_mod_self_left]
      exact ih hi
    · rw [Nat.add_mul_div_right _ _ (Nat.two_pow_pos _), Nat.div_eq_of_lt (sumBytes_lt B i), Nat.zero_add,
        Nat.mod_eq_of_lt (B i).isLt]

/-- The base-256 digits of x sum to x modulo 256^n. -/
theorem sumBytes_value (x n : Nat) : sumBytes (fun j => BitVec.ofNat 8 (x >>> (8 * j))) true n = x % 2 ^ (8 * n) := by
  induction n with
  | zero => simp [sumBytes, Nat.mod_one]
  | succ n ih =>
    have hp : (2 : Nat) ^ (8 * (n + 1)) = 2 ^ (8 * n) * 2 ^ 8 := by rw [← Nat.pow_add]; congr 1
    rw [sumBytes, ih, BitVec.toNat_ofNat, Nat.shiftRight_eq_div_pow, hp, Nat.mod_mul, Nat.mul_comm (_ % 2 ^ 8)]
    rfl

theorem sumBytes_eq_sum (B : Nat → Byte) (le : Bool) (n : Nat) :
    sumBytes B le n = ∑ j ∈ Finset.range n, (B j).toNat * 2 ^ bytePos le j := by
  induction n with
  | zero => rfl
  | succ n ih => rw [sumBytes, ih, Finset.sum_range_succ]

/-- The big-endian sum is the little-endian sum of the bytes in reverse order. -/
theorem sumBytes_reverse (B : Nat → Byte) : sumBytes B false 1024 = sumBytes (fun j => B (1023 - j)) true 1024 := by
  rw [sumBytes_eq_sum, sumBytes_eq_sum, ← Finset.sum_range_reflect]
  refine Finset.sum_congr rfl fun j hj => ?_
  rw [Finset.mem_range] at hj
  simp [bytePos, show 1023 - (1023 - j) = j by omega]

theorem sumBytes_congr {B B' : Nat → Byte} {le : Bool} {n : Nat} (h : ∀ j, j < n → B j = B' j) :
    sumBytes B le n = sumBytes B' le n := by
  induction n with
  | zero => rfl
  | succ n ih => rw [sumBytes, sumBytes, ih fun i hi => h i (by omega), h n (by omega)]

/-- FromBytes by value (R41). -/
theorem fromBytes_toNat (B : Vector Byte 1024) (le : Bool) :
    (fromBytes B le).toNat = sumBytes (fun j => B.toList.getD (if le then j else 1023 - j) 0) true 1024 := by
  have h : ∀ B, sumBytes B true 1024 < 2 ^ 8192 := fun B => sumBytes_lt B 1024
  cases le
  · rw [fromBytes, sumBytes_reverse, toNat_ofValue (h _)]
    rfl
  · rw [fromBytes, toNat_ofValue (h _)]
    rfl

end Sys2Proof.Machine
end

