-- ==== Sys2Proof/Laws/Decode.lean ====
section
/-! SUPPORT. The laws of the packet format: the fields of an assembled packet, register numbers, the opcode map and the
ENCODE parameter word. -/

namespace Sys2Proof

theorem ofNumber_number (r : WReg) : WReg.ofNumber r.number = r := by cases r <;> rfl

theorem number_ofNumber (n : BitVec 2) : (WReg.ofNumber n).number = n := by
  revert n
  decide

theorem opcodeOf_number (op : Opcode) : opcodeOf op.number = some op := by cases op <;> rfl

/-- The opcode map is read from the numbers of R56 and nothing else. -/
theorem opcodeOf_eq_some {n : BitVec 8} {op : Opcode} : opcodeOf n = some op ↔ n = op.number := by
  constructor
  · intro h
    have := List.find?_some h
    exact (beq_iff_eq.mp this).symm
  · rintro rfl
    exact opcodeOf_number op

theorem opcodeOf_eq_none {n : BitVec 8} : opcodeOf n = none ↔ ∀ op : Opcode, n ≠ op.number := by
  constructor
  · intro h op hn
    rw [hn, opcodeOf_number] at h
    exact Option.some_ne_none _ h
  · intro h
    cases hn : opcodeOf n with
    | none => rfl
    | some op => exact absurd (opcodeOf_eq_some.mp hn) (h op)

section
variable (op : Opcode) (rd ra rb : WReg) (desc : Desc) (data : BitVec 64)

theorem packetOpcode_mkPacket : packetOpcode (mkPacket op rd ra rb desc data) = op.number := by
  apply BitVec.eq_of_getLsbD_eq
  intro i hi
  interval_cases i <;> simp [packetOpcode, mkPacket]

theorem packetRd_mkPacket : packetRd (mkPacket op rd ra rb desc data) = rd.number := by
  apply BitVec.eq_of_getLsbD_eq
  intro i hi
  interval_cases i <;> simp [packetRd, mkPacket]

theorem packetRa_mkPacket : packetRa (mkPacket op rd ra rb desc data) = ra.number := by
  apply BitVec.eq_of_getLsbD_eq
  intro i hi
  interval_cases i <;> simp [packetRa, mkPacket]

theorem packetRb_mkPacket : packetRb (mkPacket op rd ra rb desc data) = rb.number := by
  apply BitVec.eq_of_getLsbD_eq
  intro i hi
  interval_cases i <;> simp [packetRb, mkPacket]

theorem packetRsv_mkPacket : packetRsv (mkPacket op rd ra rb desc data) = 0 := by
  apply BitVec.eq_of_getLsbD_eq
  intro i hi
  interval_cases i <;> simp [packetRsv, mkPacket]

theorem packetDesc_mkPacket : packetDesc (mkPacket op rd ra rb desc data) = desc := by
  apply BitVec.eq_of_getLsbD_eq
  intro i hi
  interval_cases i <;> simp [packetDesc, mkPacket]

theorem packetData_mkPacket : packetData (mkPacket op rd ra rb desc data) = data := by
  apply BitVec.eq_of_getLsbD_eq
  intro i hi
  interval_cases i <;> simp [packetData, mkPacket]

/-- Decoding an assembled packet gives the command with the operands it was assembled from. -/
theorem decode_mkPacket :
    decode (mkPacket op rd ra rb desc data) = .ok (operands op (mkPacket op rd ra rb desc data)) := by
  simp [decode, packetRsv_mkPacket, packetOpcode_mkPacket, opcodeOf_number]

end

theorem encodeParams_encodeWord (p : EncodeParams) : encodeParams (encodeWord p) = p := by
  obtain ⟨sign, csel, le, mode, offset⟩ := p
  simp only [encodeParams, EncodeParams.mk.injEq]
  refine ⟨?_, ?_, ?_, ?_, ?_⟩ <;> apply BitVec.eq_of_getLsbD_eq <;> intro i hi
  · interval_cases i; simp [encodeWord]
  · interval_cases i; simp [encodeWord]
  · interval_cases i; simp [encodeWord]
  · interval_cases i <;> simp [encodeWord]
  · interval_cases i <;> simp [encodeWord]

/-- What decoding a packet says about it. -/
theorem decode_eq_ok {p : Packet} {i : Instr} :
    decode p = .ok i ↔ packetRsv p = 0 ∧ ∃ op : Opcode, packetOpcode p = op.number ∧ i = operands op p := by
  unfold decode
  by_cases h : packetRsv p = 0
  · rw [if_pos h]
    cases ho : opcodeOf (packetOpcode p) with
    | none =>
      have := opcodeOf_eq_none.mp ho
      simp only [reduceCtorEq, false_iff, not_and, not_exists]
      exact fun _ op hop => absurd hop (this op)
    | some op =>
      have hop := opcodeOf_eq_some.mp ho
      simp only [Except.ok.injEq]
      constructor
      · rintro rfl
        exact ⟨h, op, hop, rfl⟩
      · rintro ⟨-, op', hop', rfl⟩
        rw [hop, ← opcodeOf_eq_some, opcodeOf_number, Option.some.injEq] at hop'
        rw [hop']
  · rw [if_neg h]
    simp only [reduceCtorEq, false_iff]
    exact fun hc => h hc.1

/-- When decoding rejects a packet (30_encoding.md R58). -/
theorem decode_eq_error {p : Packet} :
    (∃ e, decode p = .error e) ↔ packetRsv p ≠ 0 ∨ ∀ op : Opcode, packetOpcode p ≠ op.number := by
  unfold decode
  by_cases h : packetRsv p = 0
  · rw [if_pos h]
    cases ho : opcodeOf (packetOpcode p) with
    | none => exact ⟨fun _ => .inr (opcodeOf_eq_none.mp ho), fun _ => ⟨_, rfl⟩⟩
    | some op =>
      constructor
      · rintro ⟨e, he⟩; simp at he
      · rintro (hc | hc)
        · exact absurd h hc
        · exact absurd (opcodeOf_eq_some.mp ho) (hc op)
  · rw [if_neg h]
    exact ⟨fun _ => .inl h, fun _ => ⟨_, rfl⟩⟩

theorem opcode_operands (op : Opcode) (p : Packet) : (operands op p).opcode = op := by cases op <;> rfl

end Sys2Proof
end

