-- ==== Sys2Proof/Laws/Descriptor.lean ====
section
/-! SUPPORT. The laws of the IndexDescriptor: the granularity table, the check, and the fields of a packed descriptor and
of an unpacked result word. -/

namespace Sys2Proof.Machine

/-! ### Granularity (41_index_codec.md R100) -/

theorem unitCount_mul_unitBits (m : Mode) : m.unitCount * m.unitBits = 8192 := by cases m <;> rfl
theorem unitBits_pos (m : Mode) : 0 < m.unitBits := by cases m <;> decide
theorem unitCount_le (m : Mode) : m.unitCount ≤ 8192 := by cases m <;> decide
theorem upc_mul_unitBits {m : Mode} (h : m.isScalar = true) : m.upc * m.unitBits = 64 := by
  cases m <;> first | rfl | simp [Mode.isScalar] at h
theorem cpu_mul_chunk {m : Mode} (h : m.isScalar = false) : 64 * m.cpu = m.unitBits := by
  cases m <;> first | rfl | simp [Mode.isScalar] at h
theorem unitBits_le_of_scalar {m : Mode} (h : m.isScalar = true) : m.unitBits ≤ 64 := by
  cases m <;> first | decide | simp [Mode.isScalar] at h
theorem unitCount_mul_cpu {m : Mode} (h : m.isScalar = false) : m.cpu * m.unitCount = 128 := by
  cases m <;> first | rfl | simp [Mode.isScalar] at h
theorem unitCount_eq_upc {m : Mode} (h : m.isScalar = true) : m.unitCount = 128 * m.upc := by
  cases m <;> first | rfl | simp [Mode.isScalar] at h
theorem isScalar_iff (m : Mode) : m.isScalar = true ↔ m.number ≤ 5 := by cases m <;> decide

/-- The mode field and the granularity it selects are the same number. -/
theorem ofField_eq_some (f : BitVec 4) (m : Mode) : Mode.ofField f = some m ↔ f.toNat = m.number := by
  revert f m
  have : ∀ f : BitVec 4, ∀ m : Mode, (Mode.ofField f = some m ↔ f.toNat = m.number) := by
    intro f
    have hf : f.toNat < 16 := f.isLt
    intro m
    unfold Mode.ofField
    generalize f.toNat = n at *
    interval_cases n <;> cases m <;> simp [Mode.number]
  exact this

/-- Mode fields 12 to 15 are reserved (R100). -/
theorem ofField_eq_none (f : BitVec 4) : Mode.ofField f = none ↔ 11 < f.toNat := by
  have hf : f.toNat < 16 := f.isLt
  unfold Mode.ofField
  generalize f.toNat = n at *
  interval_cases n <;> simp

theorem number_lt (m : Mode) : m.number < 12 := by cases m <;> decide

/-- Every granularity has a mode field. -/
theorem ofField_number (m : Mode) : Mode.ofField (BitVec.ofNat 4 m.number) = some m := by cases m <;> rfl

/-! ### The check (R102, R103) -/

/-- Check answers Ok exactly for the valid descriptors, with the unit they name. -/
theorem checkDesc_ok {d : Desc} {m : Mode} {k : Nat} : checkDesc d = .ok ⟨m, k⟩ ↔ NamesUnit d m k := by
  unfold checkDesc NamesUnit
  have hv : descVersion d = 0 ∨ descVersion d = 1 := by
    generalize descVersion d = v
    revert v
    decide
  rcases hv with hv | hv
  · rw [if_neg (by rw [hv]; decide)]
    by_cases hr : descReserved d = 0
    · rw [if_neg (by simp [hr])]
      rcases hm : Mode.ofField (descMode d) with _ | m'
      · simp
      · simp only [Option.some.injEq]
        split
        · constructor
          · intro h; simp at h
          · rintro ⟨-, -, rfl, rfl, h⟩; omega
        · simp only [Except.ok.injEq, UnitRef.mk.injEq]
          constructor
          · rintro ⟨rfl, rfl⟩; exact ⟨hv, hr, rfl, rfl, by omega⟩
          · rintro ⟨-, -, rfl, rfl, -⟩; exact ⟨rfl, rfl⟩
    · rw [if_pos hr]
      exact ⟨fun h => (by simp at h), fun h => absurd h.2.1 hr⟩
  · rw [if_pos hv]
    exact ⟨fun h => (by simp at h), fun h => absurd (hv.symm.trans h.1) (by decide)⟩

/-- Check answers UnsupportedVersion exactly when the version bit is 1, whatever else is wrong (R103). -/
theorem checkDesc_version {d : Desc} : checkDesc d = .error .unsupportedVersion ↔ descVersion d = 1 := by
  unfold checkDesc
  constructor
  · intro h
    by_contra hv
    rw [if_neg hv] at h
    split at h
    · simp at h
    · split at h
      · simp at h
      · split at h <;> simp at h
  · intro h; rw [if_pos h]

/-- Check answers OutOfRange exactly for version 0 with another defect (R103). -/
theorem checkDesc_range {d : Desc} : checkDesc d = .error .outOfRange ↔ OutOfRangeDesc d := by
  have hv : descVersion d = 0 ↔ ¬descVersion d = 1 := by
    generalize descVersion d = v
    revert v
    decide
  unfold checkDesc OutOfRangeDesc
  rw [hv, ← ofField_eq_none]
  by_cases h1 : descVersion d = 1
  · simp [h1]
  · rw [if_neg h1]
    by_cases hr : descReserved d = 0
    · rw [if_neg (by simp [hr])]
      rcases hm : Mode.ofField (descMode d) with _ | m'
      · exact ⟨fun _ => ⟨h1, .inr (.inl rfl)⟩, fun _ => rfl⟩
      · simp only [Option.some.injEq, exists_eq_left', h1, not_false_eq_true, true_and, hr, ne_eq, not_true_eq_false,
          false_or, reduceCtorEq]
        split <;> simp_all
    · rw [if_pos hr]
      exact ⟨fun _ => ⟨h1, .inl hr⟩, fun _ => rfl⟩

/-- Check raises no other error kind. -/
theorem checkDesc_cases (d : Desc) :
    (∃ m k, checkDesc d = .ok ⟨m, k⟩) ∨ checkDesc d = .error .unsupportedVersion ∨ checkDesc d = .error .outOfRange := by
  unfold checkDesc
  split
  · exact .inr (.inl rfl)
  · split
    · exact .inr (.inr rfl)
    · split
      · exact .inr (.inr rfl)
      · split
        · exact .inr (.inr rfl)
        · exact .inl ⟨_, _, rfl⟩

/-- The flag bits play no part in the check (R116). -/
theorem checkDesc_flags {d d' : Desc} (h : SameButFlags d d') : checkDesc d = checkDesc d' := by
  obtain ⟨h1, h2, h3, h4⟩ := h
  simp only [checkDesc, h1, h2, h3, h4]

/-! ### Packing and unpacking (R105, R106) -/

theorem offset_high_bits {k : BitVec 32} (h : k.toNat < 2 ^ 16) {i : Nat} (hi : 16 ≤ i) (hi' : i < 32) :
    k[i] = false := by
  rw [← BitVec.getLsbD_eq_getElem, BitVec.getLsbD, Nat.testBit_lt_two_pow]
  exact lt_of_lt_of_le h (Nat.pow_le_pow_right (by decide) hi)

theorem descOffset_packDesc (p : EncodeParams) : descOffset (packDesc p) = p.offset.setWidth 16 := by
  apply BitVec.eq_of_getLsbD_eq
  intro i hi
  simp [descOffset, packDesc, hi, show i < 32 by omega, show i < 27 by omega]
  intros
  omega

section
variable {p : EncodeParams} (h : p.offset.toNat < 2 ^ 16)
include h

theorem descMode_packDesc : descMode (packDesc p) = p.mode := by
  apply BitVec.eq_of_getLsbD_eq
  intro i hi
  interval_cases i <;> simp [descMode, packDesc, offset_high_bits h]

theorem descVersion_packDesc : descVersion (packDesc p) = 0 := by
  apply BitVec.eq_of_getLsbD_eq
  intro i hi
  interval_cases i; simp [descVersion, packDesc, offset_high_bits h]

theorem descReserved_packDesc : descReserved (packDesc p) = 0 := by
  apply BitVec.eq_of_getLsbD_eq
  intro i hi
  interval_cases i <;> simp [descReserved, packDesc, offset_high_bits h]

theorem descSign_packDesc : descSign (packDesc p) = p.sign := by
  apply BitVec.eq_of_getLsbD_eq
  intro i hi
  interval_cases i; simp [descSign, packDesc, offset_high_bits h]

theorem descCsel_packDesc : descCsel (packDesc p) = p.csel := by
  apply BitVec.eq_of_getLsbD_eq
  intro i hi
  interval_cases i; simp [descCsel, packDesc, offset_high_bits h]

theorem descEndian_packDesc : descEndian (packDesc p) = p.le := by
  apply BitVec.eq_of_getLsbD_eq
  intro i hi
  interval_cases i; simp [descEndian, packDesc, offset_high_bits h]

end

/-- The notation D(mode, offset) of 30_encoding.md R63 names the unit it is written for. -/
theorem namesUnit_descDefault {m : Mode} {k : Nat} (hk : k < m.unitCount) :
    NamesUnit (descDefault (BitVec.ofNat 4 m.number) (BitVec.ofNat 32 k)) m k := by
  have hc := unitCount_le m
  have ho : (BitVec.ofNat 32 k).toNat = k := by rw [BitVec.toNat_ofNat, Nat.mod_eq_of_lt (by omega)]
  have h : (BitVec.ofNat 32 k).toNat < 2 ^ 16 := by omega
  refine ⟨descVersion_packDesc h, descReserved_packDesc h, ?_, ?_, hk⟩
  · rw [descDefault, descNotation, descMode_packDesc h]
    exact ofField_number m
  · rw [descDefault, descNotation, descOffset_packDesc, BitVec.toNat_setWidth, ho, Nat.mod_eq_of_lt (by omega)]

/-- A descriptor is its seven fields (30_encoding.md R54: "fields fill 32 bits exactly"). -/
theorem desc_ext {d d' : Desc} (h1 : descVersion d = descVersion d') (h2 : descMode d = descMode d')
    (h3 : descReserved d = descReserved d') (h4 : descSign d = descSign d') (h5 : descCsel d = descCsel d')
    (h6 : descEndian d = descEndian d') (h7 : descOffset d = descOffset d') : d = d' := by
  apply BitVec.eq_of_getLsbD_eq
  intro i hi
  have e1 := congrArg (BitVec.getLsbD · (i - 31)) h1
  have e2 := congrArg (BitVec.getLsbD · (i - 27)) h2
  have e3 := congrArg (BitVec.getLsbD · (i - 19)) h3
  have e4 := congrArg (BitVec.getLsbD · (i - 18)) h4
  have e5 := congrArg (BitVec.getLsbD · (i - 17)) h5
  have e6 := congrArg (BitVec.getLsbD · (i - 16)) h6
  have e7 := congrArg (BitVec.getLsbD · i) h7
  simp only [descVersion, descMode, descReserved, descSign, descCsel, descEndian, descOffset, BitVec.getLsbD_extractLsb']
    at e1 e2 e3 e4 e5 e6 e7
  interval_cases i <;> simp_all

end Sys2Proof.Machine
end

