-- ==== Sys2Proof/Laws/Units.lean ====
section
/-! SUPPORT. The laws of UnitRead and UnitWrite (20_memory.md R32 to R35), bit by bit: one lemma per primitive says which
bits it moves. -/

namespace Sys2Proof.Machine

theorem getLsbD_lowMask {u : Nat} (hu : u ≤ 64) (i : Nat) : (lowMask u).getLsbD i = decide (i < u) := by
  rw [lowMask, BitVec.getLsbD_ofNat, Nat.testBit_two_pow_sub_one]
  by_cases h : i < u
  · simp [h, show i < 64 by omega]
  · simp [h]

theorem and_lowMask_toNat {u : Nat} (hu : u ≤ 64) (c : Chunk) : (c &&& lowMask u).toNat = c.toNat % 2 ^ u := by
  apply Nat.eq_of_testBit_eq
  intro i
  rw [← BitVec.getLsbD, BitVec.getLsbD_and, getLsbD_lowMask hu, Nat.testBit_mod_two_pow, Bool.and_comm]
  rfl

/-- A unit of modes 0 to 5 starts at bit `unit_bits * k` of the register (R32, R33). -/
theorem unit_start {m : Mode} (hm : m.isScalar = true) (k : Nat) :
    64 * unitChunk m k + unitPos m k = m.unitBits * k := by
  have h := upc_mul_unitBits hm
  have hk := Nat.div_add_mod k m.upc
  rw [unitChunk, unitPos, ← h]
  calc m.upc * m.unitBits * (k / m.upc) + k % m.upc * m.unitBits
      = m.unitBits * (m.upc * (k / m.upc) + k % m.upc) := by ring
    _ = _ := by rw [hk]

/-- It ends inside its chunk (R36). -/
theorem unit_end {m : Mode} (hm : m.isScalar = true) (k : Nat) : unitPos m k + m.unitBits ≤ 64 := by
  have h := upc_mul_unitBits hm
  have hpos : 0 < m.upc := by
    rcases Nat.eq_zero_or_pos m.upc with h0 | h0
    · rw [h0] at h; omega
    · exact h0
  have hk : k % m.upc + 1 ≤ m.upc := Nat.mod_lt _ hpos
  calc unitPos m k + m.unitBits = (k % m.upc + 1) * m.unitBits := by rw [unitPos]; ring
    _ ≤ m.upc * m.unitBits := Nat.mul_le_mul_right _ hk
    _ = 64 := h

theorem unitChunk_lt {m : Mode} (hm : m.isScalar = true) {k : Nat} (hk : k < m.unitCount) : unitChunk m k < 128 := by
  rw [unitCount_eq_upc hm, Nat.mul_comm] at hk
  exact Nat.div_lt_of_lt_mul hk

/-! ### Reading -/

theorem getLsbD_readScalarUnit {m : Mode} (hm : m.isScalar = true) (x : Wide) (k i : Nat) :
    (readScalarUnit x m k).getLsbD i = (decide (i < m.unitBits) && x.getLsbD (m.unitBits * k + i)) := by
  rw [readScalarUnit, BitVec.getLsbD_and, getLsbD_lowMask (unitBits_le_of_scalar hm), BitVec.getLsbD_ushiftRight,
    getLsbD_chunk, Bool.and_comm, ← unit_start hm k, Nat.add_assoc]
  have he := unit_end hm k
  by_cases hi : i < m.unitBits
  · simp [hi, show unitPos m k + i < 64 by omega]
  · simp [hi]

theorem testBit_unitValue (x : Wide) (m : Mode) (k i : Nat) :
    (unitValue x m k).testBit i = (decide (i < m.unitBits) && x.getLsbD (m.unitBits * k + i)) := by
  rw [unitValue, Nat.testBit_mod_two_pow, Nat.testBit_shiftRight]
  rfl

/-- R34's two readings of a scalar unit agree. -/
theorem readScalarUnit_toNat {m : Mode} (hm : m.isScalar = true) (x : Wide) (k : Nat) :
    (readScalarUnit x m k).toNat = unitValue x m k := by
  apply Nat.eq_of_testBit_eq
  intro i
  rw [testBit_unitValue, ← getLsbD_readScalarUnit hm]
  rfl

theorem chunk_readSubUnit (x : Wide) (m : Mode) (k : Nat) {j : Nat} (hj : j < 128) :
    chunk (readSubUnit x m k) j = if j < m.cpu then chunk x (m.cpu * k + j) else 0 := by
  rw [readSubUnit, chunk_ofChunks _ hj]

theorem getLsbD_readSubUnit {m : Mode} (hm : m.isScalar = false) (x : Wide) (k i : Nat) :
    (readSubUnit x m k).getLsbD i = (decide (i < m.unitBits) && x.getLsbD (m.unitBits * k + i)) := by
  by_cases hi : i < 8192
  · have hu := cpu_mul_chunk hm
    have hidx : 64 * (m.cpu * k + i / 64) + i % 64 = m.unitBits * k + i := by
      rw [← hu, Nat.mul_add, ← Nat.mul_assoc, Nat.add_assoc, Nat.div_add_mod]
    rw [getLsbD_eq_chunk, chunk_readSubUnit _ _ _ (by omega)]
    by_cases hj : i / 64 < m.cpu
    · rw [if_pos hj, getLsbD_chunk, hidx]
      simp [show i < m.unitBits by omega, Nat.mod_lt]
    · rw [if_neg hj]
      simp [show ¬i < m.unitBits by omega]
  · have hu : m.unitBits ≤ 4096 := by cases m <;> decide
    rw [BitVec.getLsbD_of_ge _ _ (by omega)]
    simp [show ¬i < m.unitBits by omega]

/-- R34's two readings of a sub-integer unit agree. -/
theorem readSubUnit_toNat {m : Mode} (hm : m.isScalar = false) (x : Wide) (k : Nat) :
    (readSubUnit x m k).toNat = unitValue x m k := by
  apply Nat.eq_of_testBit_eq
  intro i
  rw [testBit_unitValue, ← getLsbD_readSubUnit hm]
  rfl

/-! ### Writing -/

/-- UnitWrite of modes 0 to 5 replaces exactly the bits of the unit (R35). -/
theorem getLsbD_writeScalarUnit {m : Mode} (hm : m.isScalar = true) (x : Wide) {k : Nat} (hk : k < m.unitCount)
    (v : BitVec 64) (b : Nat) :
    (writeScalarUnit x m k v).getLsbD b =
      if m.unitBits * k ≤ b ∧ b < m.unitBits * k + m.unitBits then v.getLsbD (b - m.unitBits * k) else x.getLsbD b := by
  have he := unit_end hm k
  have hu := unitBits_le_of_scalar hm
  have hc := unitChunk_lt hm hk
  by_cases hb : b < 8192
  · rw [getLsbD_eq_chunk, writeScalarUnit, chunk_setChunk _ _ (by omega), ← unit_start hm k]
    by_cases hj : b / 64 = unitChunk m k
    · have hb64 : b = 64 * unitChunk m k + b % 64 := by rw [← hj, Nat.div_add_mod]
      have hlt : b % 64 < 64 := Nat.mod_lt _ (by decide)
      rw [if_pos hj]
      simp only [BitVec.getLsbD_or, BitVec.getLsbD_and, BitVec.getLsbD_not, BitVec.getLsbD_shiftLeft, getLsbD_lowMask hu,
        getLsbD_chunk, hlt, decide_true, Bool.true_and]
      rw [← hb64]
      by_cases h1 : unitPos m k ≤ b % 64
      · by_cases h2 : b % 64 < unitPos m k + m.unitBits
        · rw [if_pos ⟨by omega, by omega⟩]
          simp [show ¬b % 64 < unitPos m k by omega, show b % 64 - unitPos m k < m.unitBits by omega,
            show b - (64 * unitChunk m k + unitPos m k) = b % 64 - unitPos m k by omega]
        · rw [if_neg (by omega)]
          simp [show ¬b % 64 - unitPos m k < m.unitBits by omega]
      · rw [if_neg (by omega)]
        simp [show b % 64 < unitPos m k by omega]
    · rw [if_neg hj, getLsbD_chunk, Nat.div_add_mod, if_neg (by omega)]
      simp [Nat.mod_lt]
  · have hmul := unitCount_mul_unitBits m
    have hend : m.unitBits * k + m.unitBits ≤ 8192 := by
      calc m.unitBits * k + m.unitBits = (k + 1) * m.unitBits := by ring
        _ ≤ m.unitCount * m.unitBits := Nat.mul_le_mul_right _ hk
        _ = 8192 := hmul
    rw [BitVec.getLsbD_of_ge _ _ (by omega), if_neg (by omega), BitVec.getLsbD_of_ge _ _ (by omega)]

theorem chunk_writeSubUnit (x src : Wide) (m : Mode) (k : Nat) {i : Nat} (hi : i < 128) :
    chunk (writeSubUnit x src m k) i =
      if m.cpu * k ≤ i ∧ i < m.cpu * k + m.cpu then chunk src (i - m.cpu * k) else chunk x i := by
  rw [writeSubUnit, chunk_ofChunks _ hi]

/-- UnitWrite of modes 6 to 11 replaces exactly the bits of the unit (R35). -/
theorem getLsbD_writeSubUnit {m : Mode} (hm : m.isScalar = false) (x src : Wide) {k : Nat} (hk : k < m.unitCount)
    (b : Nat) :
    (writeSubUnit x src m k).getLsbD b =
      if m.unitBits * k ≤ b ∧ b < m.unitBits * k + m.unitBits then src.getLsbD (b - m.unitBits * k) else x.getLsbD b := by
  have hu := cpu_mul_chunk hm
  have hmul : m.unitBits * k = 64 * (m.cpu * k) := by rw [← hu]; ring
  by_cases hb : b < 8192
  · rw [getLsbD_eq_chunk, chunk_writeSubUnit _ _ _ _ (by omega), hmul]
    by_cases hj : m.cpu * k ≤ b / 64 ∧ b / 64 < m.cpu * k + m.cpu
    · rw [if_pos hj, if_pos ⟨by omega, by omega⟩, getLsbD_chunk,
        show 64 * (b / 64 - m.cpu * k) + b % 64 = b - 64 * (m.cpu * k) by omega]
      simp [Nat.mod_lt]
    · rw [if_neg hj, if_neg (by omega), getLsbD_chunk, Nat.div_add_mod]
      simp [Nat.mod_lt]
  · have hend : m.unitBits * k + m.unitBits ≤ 8192 := by
      calc m.unitBits * k + m.unitBits = (k + 1) * m.unitBits := by ring
        _ ≤ m.unitCount * m.unitBits := Nat.mul_le_mul_right _ hk
        _ = 8192 := unitCount_mul_unitBits m
    rw [BitVec.getLsbD_of_ge _ _ (by omega), if_neg (by omega), BitVec.getLsbD_of_ge _ _ (by omega)]

end Sys2Proof.Machine
end

