-- ==== Sys2Proof/Laws/Commands.lean ====
section
/-! SUPPORT. One spec lemma per shared way of ending a command, and the inversion lemmas of the commands and of the step:
each says once everything that can happen. -/

namespace Sys2Proof.Machine

/-! ### Ends of a command -/

theorem sameShell_refl (s : State) : SameShell s s := ⟨rfl, rfl, rfl⟩

theorem respondScalar_ok (v : BitVec 64) (s : State) : EndsScalar s (respondScalar (.ok v) s) v :=
  ⟨rfl, rfl, fun _ => readWide_succeed _ _ _, sameShell_refl s⟩

theorem raise_ends (e : ErrorKind) (s : State) : EndsFailed s (raise e s) e.code :=
  ⟨rfl, rfl, fun _ => readWide_raise _ _ _, sameShell_refl s⟩

theorem respondScalar_error (e : ErrorKind) (s : State) : EndsFailed s (respondScalar (.error e) s) e.code :=
  raise_ends e s

theorem respondWide_ok (rd : WReg) (x : Wide) (s : State) : EndsWide s (respondWide rd (.ok x) s) rd x := by
  refine ⟨rfl, rfl, ?_, ?_, ?_⟩
  · simp [respondWide]
  · intro r hr
    simp [respondWide, hr]
  · simp [respondWide, SameShell]

theorem respondWide_error (rd : WReg) (e : ErrorKind) (s : State) :
    EndsFailed s (respondWide rd (.error e) s) e.code := raise_ends e s

/-- The ways a command ends are exclusive states: the end determines the state. -/
theorem endsScalar_unique {s t t' : State} {v : BitVec 64} (h : EndsScalar s t v) (h' : EndsScalar s t' v) : t = t' := by
  refine state_ext (fun r => ?_) (h.status.trans h'.status.symm) (h.result.trans h'.result.symm) ?_
  · rw [h.wide r, h'.wide r]
  · exact ⟨h.shell.1.trans h'.shell.1.symm, h.shell.2.1.trans h'.shell.2.1.symm, h.shell.2.2.trans h'.shell.2.2.symm⟩

/-! ### The end of each command -/

/-- How a command can end in `t` from `s`: Ok with a scalar, Ok with a wide register written, or failed. -/
inductive Ends (s t : State) (dest : Option WReg) (codes : List (BitVec 8)) : Prop where
  | scalar (v : BitVec 64) (h : EndsScalar s t v)
  | wide (rd : WReg) (x : Wide) (hd : dest = some rd) (h : EndsWide s t rd x)
  | failed (e : ErrorKind) (hc : e.code ∈ codes) (h : EndsFailed s t e.code)

/-- Every command answers a next state, and it ends in one of the three ways (10_state.md R12, 60_exceptions.md R131). -/
theorem exec_ends (i : Instr) (s : State) : ∃ t, exec i s = .next t ∧ Ends s t (destOf i) (possibleStatus i) := by
  cases i with
  | init rd v => exact ⟨_, rfl, .wide _ _ rfl (respondWide_ok _ _ _)⟩
  | add rd ra rb =>
    refine ⟨_, rfl, ?_⟩
    rw [addWide_eq]
    split
    · exact .wide _ _ rfl (respondWide_ok _ _ _)
    · exact .failed .overflow (by simp [possibleStatus, ErrorKind.code]) (respondWide_error _ _ _)
  | sub rd ra rb => exact ⟨_, rfl, .wide _ _ rfl (respondWide_ok _ _ _)⟩
  | mul rd ra rb =>
    refine ⟨_, rfl, ?_⟩
    unfold mulWide
    split
    · exact .wide _ _ rfl (respondWide_ok _ _ _)
    · exact .failed .overflow (by simp [possibleStatus, ErrorKind.code]) (respondWide_error _ _ _)
  | div rd ra rb =>
    refine ⟨_, rfl, ?_⟩
    unfold divWide
    split
    · exact .failed .divisionByZero (by simp [possibleStatus, ErrorKind.code]) (respondWide_error _ _ _)
    · exact .wide _ _ rfl (respondWide_ok _ _ _)
  | mod rd ra rb =>
    refine ⟨_, rfl, ?_⟩
    unfold modWide
    split
    · exact .failed .divisionByZero (by simp [possibleStatus, ErrorKind.code]) (respondWide_error _ _ _)
    · exact .wide _ _ rfl (respondWide_ok _ _ _)
  | cmp ra rb => exact ⟨_, rfl, .scalar _ (respondScalar_ok _ _)⟩
  | bitlen ra => exact ⟨_, rfl, .scalar _ (respondScalar_ok _ _)⟩
  | iszero ra => exact ⟨_, rfl, .scalar _ (respondScalar_ok _ _)⟩
  | encode p =>
    refine ⟨_, rfl, ?_⟩
    unfold encodeDesc
    split
    · exact .failed .invalidArgument (by simp [possibleStatus, ErrorKind.code]) (respondScalar_error _ _)
    · split
      · exact .failed .invalidArgument (by simp [possibleStatus, ErrorKind.code]) (respondScalar_error _ _)
      · exact .scalar _ (respondScalar_ok _ _)
  | decode d => exact ⟨_, rfl, .scalar _ (respondScalar_ok _ _)⟩
  | validate d =>
    refine ⟨_, rfl, ?_⟩
    rcases checkDesc_cases d with ⟨m, k, h⟩ | h | h <;> rw [h]
    · exact .scalar _ (respondScalar_ok _ _)
    · exact .failed .unsupportedVersion (by simp [possibleStatus, ErrorKind.code]) (respondScalar_error _ _)
    · exact .failed .outOfRange (by simp [possibleStatus, ErrorKind.code]) (respondScalar_error _ _)
  | read rd ra d =>
    refine ⟨_, rfl, ?_⟩
    rcases checkDesc_cases d with ⟨m, k, h⟩ | h | h <;> rw [h]
    · by_cases hm : m.isScalar = true
      · simp only [if_pos hm]
        exact .scalar _ (respondScalar_ok _ _)
      · simp only [if_neg hm]
        refine .wide rd _ ?_ (respondWide_ok _ _ _)
        have := (checkDesc_ok.mp h).2.2.1
        simp only [destOf, descModeIs, this]
        simp [hm]
    · exact .failed .unsupportedVersion (by simp [possibleStatus, ErrorKind.code]) (raise_ends _ _)
    · exact .failed .outOfRange (by simp [possibleStatus, ErrorKind.code]) (raise_ends _ _)
  | write rd ra d v =>
    refine ⟨_, rfl, ?_⟩
    rcases checkDesc_cases d with ⟨m, k, h⟩ | h | h <;> rw [h]
    · by_cases hm : m.isScalar = true
      · simp only [if_pos hm]
        exact .wide rd _ rfl (respondWide_ok _ _ _)
      · simp only [if_neg hm]
        exact .wide rd _ rfl (respondWide_ok _ _ _)
    · exact .failed .unsupportedVersion (by simp [possibleStatus, ErrorKind.code]) (raise_ends _ _)
    · exact .failed .outOfRange (by simp [possibleStatus, ErrorKind.code]) (raise_ends _ _)

/-- The codec commands on a valid descriptor. -/
theorem execRead_scalar {d : Desc} {m : Mode} {k : Nat} (h : NamesUnit d m k) (hm : m.isScalar = true)
    (rd ra : WReg) (s : State) :
    exec (.read rd ra d) s = .next (respondScalar (.ok (readScalarUnit (readWide s ra) m k)) s) := by
  show execRead rd ra d s = _
  rw [execRead, checkDesc_ok.mpr h]
  simp [hm]

theorem execRead_sub {d : Desc} {m : Mode} {k : Nat} (h : NamesUnit d m k) (hm : m.isScalar = false)
    (rd ra : WReg) (s : State) :
    exec (.read rd ra d) s = .next (respondWide rd (.ok (readSubUnit (readWide s ra) m k)) s) := by
  show execRead rd ra d s = _
  rw [execRead, checkDesc_ok.mpr h]
  simp [hm]

theorem execWrite_scalar {d : Desc} {m : Mode} {k : Nat} (h : NamesUnit d m k) (hm : m.isScalar = true)
    (rd ra : WReg) (v : BitVec 64) (s : State) :
    exec (.write rd ra d v) s = .next (respondWide rd (.ok (writeScalarUnit (readWide s rd) m k v)) s) := by
  show execWrite rd ra d v s = _
  rw [execWrite, checkDesc_ok.mpr h]
  simp [hm]

theorem execWrite_sub {d : Desc} {m : Mode} {k : Nat} (h : NamesUnit d m k) (hm : m.isScalar = false)
    (rd ra : WReg) (v : BitVec 64) (s : State) :
    exec (.write rd ra d v) s = .next (respondWide rd (.ok (writeSubUnit (readWide s rd) (readWide s ra) m k)) s) := by
  show execWrite rd ra d v s = _
  rw [execWrite, checkDesc_ok.mpr h]
  simp [hm]

/-! ### Commands one after another -/

/-- One command run first. -/
theorem runCommands_cons {i : Instr} {s t : State} (is : List Instr) (h : exec i s = .next t) :
    runCommands (i :: is) s = runCommands is t := by
  rw [runCommands, h]

/-- A sequence that runs through, followed by another. -/
theorem runCommands_append {is : List Instr} {s t : State} (js : List Instr) (h : runCommands is s = .next t) :
    runCommands (is ++ js) s = runCommands js t := by
  induction is generalizing s with
  | nil =>
    cases h
    rfl
  | cons i is ih =>
    obtain ⟨u, hu, -⟩ := exec_ends i s
    rw [runCommands_cons is hu] at h
    rw [List.cons_append, runCommands_cons _ hu]
    exact ih h

/-! ### Steps -/

theorem presents_iff {s : State} {p : Packet} :
    Presents s p ↔ (portIn s).rst = false ∧ (portIn s).cmdValid = true ∧ (portIn s).cmd = p := Iff.rfl

/-- What one step can do: reset, run the command taken (or refuse its packet with InvalidCommand), take a packet, or
nothing. -/
theorem step_cases (s : State) :
    ((portIn s).rst = true ∧ step s = .next (applyReset s)) ∨
    ((portIn s).rst = false ∧ ∃ p, s.taken = some p ∧ step s = runPacket p (endCommand s)) ∨
    ((portIn s).rst = false ∧ s.taken = none ∧ (portIn s).cmdValid = true ∧
      step s = .next (takePacket (portIn s).cmd s)) ∨
    ((portIn s).rst = false ∧ s.taken = none ∧ (portIn s).cmdValid = false ∧ step s = .next (advanceHost s)) := by
  unfold step
  cases hr : (portIn s).rst with
  | true => exact .inl ⟨rfl, by simp⟩
  | false =>
    cases ht : s.taken with
    | some p => exact .inr (.inl ⟨rfl, p, rfl, by simp⟩)
    | none =>
      cases hv : (portIn s).cmdValid with
      | true => exact .inr (.inr (.inl ⟨rfl, rfl, rfl, by simp⟩))
      | false => exact .inr (.inr (.inr ⟨rfl, rfl, rfl, by simp⟩))

/-- Running a packet always answers a next state that ends in one of the three ways. -/
theorem runPacket_ends (p : Packet) (s : State) :
    ∃ t dest codes, runPacket p s = .next t ∧ Ends s t dest codes := by
  unfold runPacket
  cases decode p with
  | ok i =>
    obtain ⟨t, ht, he⟩ := exec_ends i s
    exact ⟨t, _, _, ht, he⟩
  | error e => exact ⟨_, none, [6], rfl, .failed .invalidCommand (by simp [ErrorKind.code]) (raise_ends _ _)⟩

/-- What every end says of STATUS, RESULT and the handshake. -/
theorem Ends.response {s t : State} {dest : Option WReg} {codes : List (BitVec 8)} (h : Ends s t dest codes) :
    t.status.toNat ≤ 6 ∧ (t.status ≠ 0 → t.result = 0) ∧ SameShell s t := by
  cases h with
  | scalar v h => exact ⟨by simp [h.status], fun hn => absurd h.status hn, h.shell⟩
  | wide rd x hd h => exact ⟨by simp [h.status], fun hn => absurd h.status hn, h.shell⟩
  | failed e hc h => exact ⟨by rw [h.status]; exact code_le_six e, fun _ => h.result, h.shell⟩

/-- A run of one step more. -/
theorem run_succ (M : Host.Core) (n : Nat) {s t : M.State} (h : M.step s = .next t) : M.run (n + 1) s = M.run n t := by
  rw [Host.Core.run.eq_2, h]

theorem runsOn_succ {n : Nat} {s t : State} (h : step s = .next t) (ht : RunsOn n t) : RunsOn (n + 1) s := by
  obtain ⟨u, hu⟩ := ht
  exact ⟨u, (run_succ Sys2Proof.core n h).trans hu⟩

end Sys2Proof.Machine
end

