-- ==== Sys2Proof/Laws/PerInstr.lean ====
section
/-! SUPPORT. A statement made for every command, one lemma per constructor. -/

/-- The packet assembled for a command carries the command's own opcode number and no reserved bit (30_encoding.md R51,
R56, R58). -/
def Sys2Proof.Laws.EncodeOpcode.Statement (i : Sys2Proof.Instr) : Prop :=
  Sys2Proof.packetOpcode (Sys2Proof.encode i) = i.opcode.number ∧ Sys2Proof.packetRsv (Sys2Proof.encode i) = 0

namespace Sys2Proof.Laws.EncodeOpcode

open Sys2Proof

theorem init (rd : WReg) (value : BitVec 64) : Statement (.init rd value) := by
  simp [Statement, encode, Instr.opcode, packetOpcode_mkPacket, packetRsv_mkPacket]

theorem add (rd ra rb : WReg) : Statement (.add rd ra rb) := by simp [Statement, encode, Instr.opcode, packetOpcode_mkPacket, packetRsv_mkPacket]

theorem sub (rd ra rb : WReg) : Statement (.sub rd ra rb) := by simp [Statement, encode, Instr.opcode, packetOpcode_mkPacket, packetRsv_mkPacket]

theorem mul (rd ra rb : WReg) : Statement (.mul rd ra rb) := by simp [Statement, encode, Instr.opcode, packetOpcode_mkPacket, packetRsv_mkPacket]

theorem div (rd ra rb : WReg) : Statement (.div rd ra rb) := by simp [Statement, encode, Instr.opcode, packetOpcode_mkPacket, packetRsv_mkPacket]

theorem mod (rd ra rb : WReg) : Statement (.mod rd ra rb) := by simp [Statement, encode, Instr.opcode, packetOpcode_mkPacket, packetRsv_mkPacket]

theorem cmp (ra rb : WReg) : Statement (.cmp ra rb) := by simp [Statement, encode, Instr.opcode, packetOpcode_mkPacket, packetRsv_mkPacket]

theorem bitlen (ra : WReg) : Statement (.bitlen ra) := by simp [Statement, encode, Instr.opcode, packetOpcode_mkPacket, packetRsv_mkPacket]

theorem iszero (ra : WReg) : Statement (.iszero ra) := by simp [Statement, encode, Instr.opcode, packetOpcode_mkPacket, packetRsv_mkPacket]

theorem encode (p : EncodeParams) : Statement (.encode p) := by simp [Statement, Sys2Proof.encode, Instr.opcode, packetOpcode_mkPacket, packetRsv_mkPacket]

theorem decode (d : Desc) : Statement (.decode d) := by simp [Statement, Sys2Proof.encode, Instr.opcode, packetOpcode_mkPacket, packetRsv_mkPacket]

theorem validate (d : Desc) : Statement (.validate d) := by simp [Statement, Sys2Proof.encode, Instr.opcode, packetOpcode_mkPacket, packetRsv_mkPacket]

theorem read (rd ra : WReg) (d : Desc) : Statement (.read rd ra d) := by
  simp [Statement, Sys2Proof.encode, Instr.opcode, packetOpcode_mkPacket, packetRsv_mkPacket]

theorem write (rd ra : WReg) (d : Desc) (value : BitVec 64) : Statement (.write rd ra d value) := by
  simp [Statement, Sys2Proof.encode, Instr.opcode, packetOpcode_mkPacket, packetRsv_mkPacket]

end Sys2Proof.Laws.EncodeOpcode
end

