-- ==== Sys2Proof/Laws/Reference.lean ====
section
/-! SUPPORT. One spec lemma per reference algorithm of Machine/Reference.lean: what schoolbook multiplication, restoring
division and the chunk-wise bit length compute, in terms of values. -/

namespace Sys2Proof.Machine

open Finset

theorem two_pow_split {a b c : Nat} (h : a = b + c) : (2 : Nat) ^ a = 2 ^ b * 2 ^ c := by rw [h, Nat.pow_add]

/-! ### Schoolbook multiplication (40_arithmetic.md R74) -/

/-- The value of the 2N product chunks. -/
def productValue (P : Nat → Nat) : Nat := ∑ k ∈ range 256, P k * 2 ^ (64 * k)

theorem productValue_update (P : Nat → Nat) (n v : Nat) (hn : n < 256) :
    productValue (Function.update P n v) + P n * 2 ^ (64 * n) = productValue P + v * 2 ^ (64 * n) := by
  unfold productValue
  rw [← sum_erase_add _ _ (mem_range.mpr hn), ← sum_erase_add (range 256) (fun k => P k * _) (mem_range.mpr hn)]
  have : ∑ x ∈ (range 256).erase n, Function.update P n v x * 2 ^ (64 * x)
      = ∑ x ∈ (range 256).erase n, P x * 2 ^ (64 * x) :=
    sum_congr rfl fun x hx => by rw [Function.update_of_ne (mem_erase.mp hx).1]
  rw [this]
  simp only [Function.update_self]
  ring

/-- One row after j columns: the product so far plus the pending carry has grown by row i times the columns done; every
product chunk is a chunk; the columns from i + j on are untouched. -/
theorem schoolbookRow_value (a b : Wide) (i : Nat) (hi : i < 128) (P : Nat → Nat) (hP : ∀ k, P k < 2 ^ 64) (j : Nat)
    (hj : j ≤ 128) :
    productValue (schoolbookRow a b i P j).1 + (schoolbookRow a b i P j).2 * 2 ^ (64 * (i + j)) =
        productValue P + (chunk a i).toNat * sumChunks (chunk b) j * 2 ^ (64 * i) ∧
      (∀ k, (schoolbookRow a b i P j).1 k < 2 ^ 64) ∧ (schoolbookRow a b i P j).2 < 2 ^ 64 ∧
      ∀ k, i + j ≤ k → (schoolbookRow a b i P j).1 k = P k := by
  induction j with
  | zero =>
    simp only [schoolbookRow, sumChunks]
    exact ⟨by ring, hP, by decide, fun _ _ => trivial⟩
  | succ j ih =>
    obtain ⟨h1, h2, h3, h4⟩ := ih (by omega)
    rw [schoolbookRow]
    rcases hl : schoolbookRow a b i P j with ⟨Q, c⟩
    rw [hl] at h1 h2 h3 h4
    simp only at h1 h2 h3 h4 ⊢
    have hA := (chunk a i).isLt
    have hB := (chunk b j).isLt
    have hQ := h2 (i + j)
    have hT : (chunk a i).toNat * (chunk b j).toNat ≤ (2 ^ 64 - 1) * (2 ^ 64 - 1) :=
      Nat.mul_le_mul (by omega) (by omega)
    generalize hTT : (chunk a i).toNat * (chunk b j).toNat + Q (i + j) + c = T
    have hu := productValue_update Q (i + j) (T % 2 ^ 64) (by omega)
    refine ⟨?_, ?_, by omega, ?_⟩
    · have hm : T % 2 ^ 64 + 2 ^ 64 * (T / 2 ^ 64) = T := Nat.mod_add_div _ _
      have e1 : (2 : Nat) ^ (64 * (i + (j + 1))) = 2 ^ 64 * 2 ^ (64 * (i + j)) := two_pow_split (by omega)
      have e2 : (2 : Nat) ^ (64 * (i + j)) = 2 ^ (64 * j) * 2 ^ (64 * i) := two_pow_split (by omega)
      rw [sumChunks, e1]
      apply Nat.add_right_cancel (m := Q (i + j) * 2 ^ (64 * (i + j)))
      calc _ = (productValue (Function.update Q (i + j) (T % 2 ^ 64)) + Q (i + j) * 2 ^ (64 * (i + j)))
            + T / 2 ^ 64 * (2 ^ 64 * 2 ^ (64 * (i + j))) := by ring
        _ = productValue Q + (T % 2 ^ 64 + 2 ^ 64 * (T / 2 ^ 64)) * 2 ^ (64 * (i + j)) := by rw [hu]; ring
        _ = (productValue Q + c * 2 ^ (64 * (i + j)))
            + ((chunk a i).toNat * (chunk b j).toNat + Q (i + j)) * 2 ^ (64 * (i + j)) := by rw [hm, ← hTT]; ring
        _ = _ := by rw [h1, e2]; ring
    · intro k
      by_cases hk : k = i + j
      · subst hk
        rw [Function.update_self]
        exact Nat.mod_lt _ (by decide)
      · rw [Function.update_of_ne hk]
        exact h2 k
    · intro k hk
      rw [Function.update_of_ne (by omega)]
      exact h4 k (by omega)

/-- After i rows: the product so far is the low i chunks of a times b, in chunks, and 0 above column i + 127. -/
theorem schoolbookRows_value (a b : Wide) (i : Nat) (hi : i ≤ 128) :
    productValue (schoolbookRows a b i) = sumChunks (chunk a) i * b.toNat ∧
      (∀ k, schoolbookRows a b i k < 2 ^ 64) ∧ ∀ k, i + 128 ≤ k → schoolbookRows a b i k = 0 := by
  induction i with
  | zero => simp [schoolbookRows, productValue, sumChunks]
  | succ i ih =>
    obtain ⟨h1, h2, h3⟩ := ih (by omega)
    obtain ⟨r1, r2, r3, r4⟩ := schoolbookRow_value a b i (by omega) _ h2 128 (by omega)
    rw [schoolbookRows]
    generalize schoolbookRow a b i (schoolbookRows a b i) 128 = row at *
    have hu := productValue_update row.1 (i + 128) row.2 (by omega)
    rw [r4 _ (by omega), h3 _ (by omega), Nat.zero_mul, Nat.add_zero] at hu
    refine ⟨?_, ?_, ?_⟩
    · rw [h1, sumChunks_all] at r1
      rw [hu, r1, sumChunks]
      ring
    · intro k
      by_cases hk : k = i + 128
      · subst hk
        rw [Function.update_self]
        exact r3
      · rw [Function.update_of_ne hk]
        exact r2 k
    · intro k hk
      rw [Function.update_of_ne (by omega), r4 k (by omega), h3 k (by omega)]

/-- The schoolbook product (R74) is the product of the values, in chunks. -/
theorem schoolbook_value (a b : Wide) :
    productValue (schoolbook a b) = a.toNat * b.toNat ∧ ∀ k, schoolbook a b k < 2 ^ 64 := by
  obtain ⟨h1, h2, -⟩ := schoolbookRows_value a b 128 (by omega)
  rw [sumChunks_all] at h1
  exact ⟨h1, h2⟩

/-- Chunk numbers, as a sum of chunks. -/
theorem sum_eq_sumChunks (P : Nat → Nat) (hP : ∀ k, P k < 2 ^ 64) (n : Nat) :
    ∑ k ∈ range n, P k * 2 ^ (64 * k) = sumChunks (fun k => BitVec.ofNat 64 (P k)) n := by
  induction n with
  | zero => rfl
  | succ n ih => rw [sum_range_succ, ih, sumChunks, BitVec.toNat_ofNat, Nat.mod_eq_of_lt (hP n)]

/-- With every high chunk 0 the product is its low 128 chunks, so it fits. -/
theorem productValue_low {P : Nat → Nat} (hP : ∀ k, P k < 2 ^ 64) (h : ∀ k, 128 ≤ k → k < 256 → P k = 0) :
    productValue P = sumChunks (fun k => BitVec.ofNat 64 (P k)) 128 := by
  rw [← sum_eq_sumChunks P hP]
  refine (sum_subset (range_mono (by decide)) fun k hk hk' => ?_).symm
  rw [h k (by simpa using hk') (mem_range.mp hk), Nat.zero_mul]

/-- With a high chunk that is not 0 the product does not fit. -/
theorem productValue_high {P : Nat → Nat} {k : Nat} (hk : 128 ≤ k) (hk' : k < 256) (h : P k ≠ 0) :
    2 ^ 8192 ≤ productValue P :=
  calc 2 ^ 8192 ≤ 2 ^ (64 * k) := Nat.pow_le_pow_right (by decide) (by omega)
    _ ≤ P k * 2 ^ (64 * k) := Nat.le_mul_of_pos_left _ (Nat.pos_of_ne_zero h)
    _ ≤ productValue P :=
      single_le_sum (f := fun k => P k * 2 ^ (64 * k)) (fun _ _ => Nat.zero_le _) (mem_range.mpr hk')

/-! ### Restoring division (R75) -/

/-- After n of the 8192 steps, quotient and remainder are those of the dividend's top n bits. -/
theorem restoringDivision_value (a b : Wide) (hb : b.toNat ≠ 0) (n : Nat) (hn : n ≤ 8192) :
    restoringDivision a b n = (a.toNat / 2 ^ (8192 - n) / b.toNat * 2 ^ (8192 - n), a.toNat / 2 ^ (8192 - n) % b.toNat) := by
  induction n with
  | zero =>
    have : a.toNat / 2 ^ 8192 = 0 := Nat.div_eq_of_lt a.isLt
    simp only [restoringDivision, Nat.sub_zero, this, Nat.zero_div, Nat.zero_mul, Nat.zero_mod]
  | succ n ih =>
    rw [restoringDivision, ih (by omega)]
    obtain ⟨i, hi, rfl⟩ : ∃ i, i ≤ 8191 ∧ n = 8191 - i := ⟨8191 - n, by omega, by omega⟩
    have e2 : 8192 - (8191 - i) = i + 1 := by omega
    have e3 : 8192 - (8191 - i + 1) = i := by omega
    have e4 : 8191 - (8191 - i) = i := by omega
    have hbit : (a.getLsbD i).toNat = a.toNat / 2 ^ i % 2 := by rw [BitVec.getLsbD, Nat.toNat_testBit]
    have hsp : a.toNat / 2 ^ (i + 1) = a.toNat / 2 ^ i / 2 := by rw [Nat.pow_succ, Nat.div_div_eq_div_mul]
    simp only [e2, e3, e4]
    rw [hbit, hsp]
    generalize a.toNat / 2 ^ i = x
    generalize b.toNat = d at *
    have hx : 2 * (x / 2) + x % 2 = x := Nat.div_add_mod _ _
    have hq := Nat.div_add_mod (x / 2) d
    have hr : x / 2 % d < d := Nat.mod_lt _ (Nat.pos_of_ne_zero hb)
    generalize x / 2 / d = q at *
    generalize x / 2 % d = r at *
    have hor : q * 2 ^ (i + 1) ||| 1 <<< i = (2 * q + 1) * 2 ^ i := by
      rw [Nat.mul_comm q, ← Nat.two_pow_add_eq_or_of_lt (by
        rw [Nat.shiftLeft_eq, Nat.one_mul]; exact Nat.pow_lt_pow_right (by decide) (by omega)), Nat.shiftLeft_eq]
      ring
    have hdq : d * (2 * q) = 2 * (d * q) := by ring
    by_cases h : d ≤ 2 * r + x % 2
    · rw [if_pos h, hor]
      have hsum : x = d * (2 * q + 1) + (2 * r + x % 2 - d) := by rw [Nat.mul_add, hdq]; omega
      have hlt : 2 * r + x % 2 - d < d := by omega
      generalize 2 * r + x % 2 - d = rr at *
      subst hsum
      rw [Nat.mul_add_div (Nat.pos_of_ne_zero hb), Nat.mul_add_mod, Nat.div_eq_of_lt hlt, Nat.mod_eq_of_lt hlt, Nat.add_zero]
    · rw [if_neg h]
      have hsum : x = d * (2 * q) + (2 * r + x % 2) := by rw [hdq]; omega
      have hlt : 2 * r + x % 2 < d := by omega
      generalize 2 * r + x % 2 = rr at *
      subst hsum
      rw [Nat.mul_add_div (Nat.pos_of_ne_zero hb), Nat.mul_add_mod, Nat.div_eq_of_lt hlt, Nat.mod_eq_of_lt hlt]
      simp only [Nat.pow_succ, Nat.add_zero, Prod.mk.injEq, and_true]
      ring

/-! ### Bit length by chunks (R78) -/

/-- The chunk-wise bit length of the low n chunks is the bit length of their value. -/
theorem chunkBitLength_value (x : Wide) (n : Nat) : chunkBitLength x n = bitLength (x.toNat % 2 ^ (64 * n)) := by
  induction n with
  | zero => simp [chunkBitLength, bitLength, Nat.mod_one]
  | succ n ih =>
    rw [chunkBitLength, mod_chunk_succ]
    split
    · rename_i h
      rw [h, ih]
      simp
    · rename_i h
      have hne : (chunk x n).toNat ≠ 0 := fun hh => h (BitVec.eq_of_toNat_eq hh)
      have hlt : x.toNat % 2 ^ (64 * n) < 2 ^ (64 * n) := Nat.mod_lt _ (Nat.two_pow_pos _)
      generalize x.toNat % 2 ^ (64 * n) = y at *
      generalize (chunk x n).toNat = c at *
      have hcp : 0 < c * 2 ^ (64 * n) := Nat.mul_pos (Nat.pos_of_ne_zero hne) (Nat.two_pow_pos _)
      symm
      unfold bitLength
      rw [if_neg (by omega), ← Nat.add_assoc]
      congr 1
      rw [Nat.log2_eq_iff (by omega)]
      have e := (Nat.log2_eq_iff hne).mp rfl
      rw [Nat.pow_add, Nat.add_assoc, Nat.pow_add]
      have l1 := Nat.mul_le_mul_left (2 ^ (64 * n)) e.1
      have l2 := Nat.mul_le_mul_left (2 ^ (64 * n)) (Nat.succ_le_of_lt e.2)
      rw [Nat.succ_eq_add_one, Nat.mul_add, Nat.mul_comm _ c] at l2
      rw [Nat.mul_comm _ c] at l1
      omega

end Sys2Proof.Machine
end

