-- ==== Sys2Proof/Laws/Values.lean ====
section
/-! SUPPORT. The arithmetic commands by value: what exec answers, in terms of `val` of the source registers, and what a
register's value is after a wide result. -/

namespace Sys2Proof.Machine

variable (s : State) (r rd ra rb : WReg)

theorem val_lt : val s r < 2 ^ 8192 := (readWide s r).isLt

theorem ofValue_val : ofValue (val s r) = readWide s r := ofValue_toNat _

/-- The value of a register after a command has written a wide result. -/
theorem val_respondWide (x : Wide) : val (respondWide rd (.ok x) s) r = if r = rd then x.toNat else val s r := by
  simp only [respondWide, val, readWide_succeed, readWide_writeWide]
  split <;> rfl

theorem exec_add_value :
    exec (.add rd ra rb) s = .next (respondWide rd
      (if val s ra + val s rb < 2 ^ 8192 then .ok (ofValue (val s ra + val s rb)) else .error .overflow) s) := by
  unfold val
  rw [← addWide_eq]
  rfl

theorem exec_sub_value :
    exec (.sub rd ra rb) s = .next (respondWide rd (.ok (readWide s ra - readWide s rb)) s) := by
  rw [← subWide_eq]
  rfl

theorem exec_mul_value :
    exec (.mul rd ra rb) s = .next (respondWide rd
      (if val s ra * val s rb < 2 ^ Config.W then .ok (ofValue (val s ra * val s rb)) else .error .overflow) s) := rfl

theorem exec_div_value :
    exec (.div rd ra rb) s = .next (respondWide rd
      (if val s rb = 0 then .error .divisionByZero else .ok (ofValue (val s ra / val s rb))) s) := rfl

theorem exec_mod_value :
    exec (.mod rd ra rb) s = .next (respondWide rd
      (if val s rb = 0 then .error .divisionByZero else .ok (ofValue (val s ra % val s rb))) s) := by
  rw [Nat.mod_eq_sub_mul_div]
  rfl

theorem exec_cmp_value :
    exec (.cmp ra rb) s = .next (respondScalar (.ok (compareCode (compare (val s ra) (val s rb)))) s) := by
  rw [val, val, ← compareChunks_all]
  rfl

theorem exec_iszero_value :
    exec (.iszero ra) s = .next (respondScalar (.ok (boolCode (decide (readWide s ra = 0)))) s) := by
  rw [← zeroChunks_all]
  rfl

/-- The three answers of CMP (30_encoding.md R62). -/
theorem compareCode_cases (x y : Nat) :
    (compareCode (compare x y) = 0 ↔ x < y) ∧ (compareCode (compare x y) = 1 ↔ x = y) ∧
      (compareCode (compare x y) = 2 ↔ y < x) := by
  rw [Nat.compare_eq_ite_lt]
  split
  · simp [compareCode]; omega
  · split
    · simp [compareCode]; omega
    · simp [compareCode]; omega

/-- An invalid descriptor: READ and WRITE end with the code of Check and nothing else (41_index_codec.md R108, R111). -/
theorem exec_read_error {d : Desc} {e : ErrorKind} (h : checkDesc d = .error e) :
    exec (.read rd ra d) s = .next (raise e s) := by
  show execRead rd ra d s = _
  unfold execRead
  rw [h]

theorem exec_write_error {d : Desc} {e : ErrorKind} (v : BitVec 64) (h : checkDesc d = .error e) :
    exec (.write rd ra d v) s = .next (raise e s) := by
  show execWrite rd ra d v s = _
  unfold execWrite
  rw [h]

end Sys2Proof.Machine
end

