-- ==== Sys2Proof/Tests/Slice0.lean ====
section
/-! SUPPORT. The model's own tests: ill-formed terms refused, words of 30_encoding.md decoded, one step on small states
(expected values from 95_test_vectors.md, whose row is named), and for each statement with hypotheses a witness. -/

namespace Sys2Proof.Tests

-- The kernel evaluations below one after another: run side by side in one file they ask for more threads than a limit on
-- memory leaves.
set_option Elab.async false

open Sys2Proof Sys2Proof.Machine

/-! ### Helpers -/

/-- V0 and V1 hold a and b; everything else is as after reset. -/
def holding (a b : Wide) : State := { State.reset with v0 := a, v1 := b }

/-- STATUS, RESULT and one wide register after a command. -/
def view (o : Host.Outcome State Fault Refusal) (r : WReg) : Option (BitVec 8 × BitVec 64 × Wide) :=
  match o with
  | .next t => some (t.status, t.result, readWide t r)
  | .fault _ => none
  | .refused _ => none

/-- 2^n as the content of a wide register. -/
def pow2 (n : Nat) : Wide := 1#8192 <<< n

/-- 2^8192 - 1. -/
def ones : Wide := BitVec.allOnes 8192

/-- The store of 95_test_vectors.md 2.9 and 2.10. -/
def store : Wide := 0xFEDCBA98765432100123456789ABCDEF

/-- A machine that has taken a packet, and the host drives the given samples next. -/
def busy (p : Packet) (host : List PortIn) : State := { State.reset with taken := some p, host := host }

/-! ### Parameters (00_scope.md R4) -/

theorem test_parameters : Config.W = Config.C * Config.N ∧ Config.byteCount = Config.W / 8 := by decide

/-! ### WellFormed: one ill-formed term for each check -/

theorem test_wf_read_scalar_rd : ¬WellFormed (.read .v1 .v0 0x10010000) := by decide
theorem test_wf_read_scalar_ok : WellFormed (.read .v0 .v2 0x10010000) := by decide
theorem test_wf_write_scalar_ra : ¬WellFormed (.write .v0 .v1 0x28010001 1) := by decide
theorem test_wf_write_sub_data : ¬WellFormed (.write .v0 .v1 0x30010001 1) := by decide
theorem test_wf_write_sub_ok : WellFormed (.write .v0 .v1 0x30010001 0) := by decide

/-! ### Decoding: the words of 30_encoding.md R51, R56 written out, one for each constructor -/

theorem test_decode_init : decode 0x0000000000000019_00000000_00000301 = .ok (.init .v3 0x19) := by decide
theorem test_decode_add : decode 0x0000000000000000_00000000_00001910 = .ok (.add .v1 .v2 .v1) := by decide
theorem test_decode_sub : decode 0x0000000000000000_00000000_00001B11 = .ok (.sub .v3 .v2 .v1) := by decide
theorem test_decode_mul : decode 0x0000000000000000_00000000_00003C12 = .ok (.mul .v0 .v3 .v3) := by decide
theorem test_decode_div : decode 0x0000000000000000_00000000_00001213 = .ok (.div .v2 .v0 .v1) := by decide
theorem test_decode_mod : decode 0x0000000000000000_00000000_00001B14 = .ok (.mod .v3 .v2 .v1) := by decide
theorem test_decode_cmp : decode 0x0000000000000000_00000000_00002415 = .ok (.cmp .v1 .v2) := by decide
theorem test_decode_bitlen : decode 0x0000000000000000_00000000_00000816 = .ok (.bitlen .v2) := by decide
theorem test_decode_iszero : decode 0x0000000000000000_00000000_00000C17 = .ok (.iszero .v3) := by decide
theorem test_decode_encode : decode 0xABCDEF93000000050000000000000020 = .ok (.encode ⟨0, 0, 1, 3, 5⟩) := by decide
/-- R60, written out: only `p_sign` (DATA bit 38), only `p_csel` (bit 37). -/
theorem test_decode_encode_sign : decode 0x0000004300000005_00000000_00000020 = .ok (.encode ⟨1, 0, 0, 3, 5⟩) := by decide
theorem test_decode_encode_csel : decode 0x0000002300000005_00000000_00000020 = .ok (.encode ⟨0, 1, 0, 3, 5⟩) := by decide
theorem test_decode_decode : decode 0x0000000000000000_58060001_00000021 = .ok (.decode 0x58060001) := by decide
theorem test_decode_validate : decode 0x0000000000000000_D8060001_00000022 = .ok (.validate 0xD8060001) := by decide
theorem test_decode_read : decode 0x0000000000000000_3001003F_00000D23 = .ok (.read .v1 .v3 0x3001003F) := by decide
theorem test_decode_write : decode 0x0000000000000001_28010001_00000124 = .ok (.write .v1 .v0 0x28010001 1) := by decide

/-- 2.1: every ignored field of INIT set. -/
theorem test_decode_ignored : decode 0x0000000000000007DEADBEEF00003C01 = .ok (.init .v0 7) := by decide

/-- 2.11: opcode 0x18 is undefined; `rsv` bit 14 and bit 31 set. -/
theorem test_decode_undefined : decode 0x18 = .error .undefinedOpcode := by decide
theorem test_decode_rsv14 : decode 0x4010 = .error .reservedBits := by decide
theorem test_decode_rsv31 : decode 0x80000001 = .error .reservedBits := by decide

/-- R56: no two rows of the map share an opcode number. -/
theorem test_rows_disjoint : (Opcode.all.map Opcode.number).Pairwise (· ≠ ·) := by decide

/-- R63: the notation D(mode, offset), from 2.7. -/
theorem test_desc_notation : descDefault 6 63 = 0x3001003F ∧ descNotation 11 1 1 1 0 = 0x58060001 := by decide

/-- The interface's two words: the table's INIT row decodes, and the next step runs it. -/
theorem test_fetch_word :
    decodeTableWord 32 0x301 = some (.init .v3 0) ∧
    step (State.reset.withFetchWord 32 0x16) = exec (.bitlen .v0) (endCommand (State.reset.withFetchWord 32 0x16)) :=
  ⟨by decide, rfl⟩

/-! ### One command on a small state -/

/-- 2.1: INIT clears the 127 upper chunks. -/
theorem test_init : view (exec (.init .v0 5) (holding ones 0)) .v0 = some (0, 0, 5) := by decide +kernel

/-- 2.2: a carry crosses a chunk boundary; a carry escapes chunk 127 and the destination, also a source, is kept (P3). -/
theorem test_add_carry :
    view (exec (.add .v2 .v0 .v1) (holding 0xFFFFFFFFFFFFFFFF 1)) .v2 = some (0, 0, pow2 64) := by decide +kernel
theorem test_add_overflow : view (exec (.add .v0 .v0 .v1) (holding ones 1)) .v0 = some (1, 0, ones) := by decide +kernel

/-- 2.3: the borrow reaches chunk 1; 0 - 1 wraps. -/
theorem test_sub_borrow :
    view (exec (.sub .v2 .v0 .v1) (holding 0x50000000000000000 0x20000000000000001)) .v2
      = some (0, 0, 0x2FFFFFFFFFFFFFFFF) := by decide +kernel
theorem test_sub_wraps : view (exec (.sub .v1 .v0 .v1) (holding 0 1)) .v1 = some (0, 0, ones) := by decide +kernel

/-- 2.4: positional weighting; a product of exactly 2^8192. -/
theorem test_mul_two_chunks :
    view (exec (.mul .v2 .v0 .v1) (holding 0x10000000000000003 0x10000000000000005)) .v2
      = some (0, 0, 0x10000000000000008000000000000000F) := by decide +kernel
theorem test_mul_overflow :
    view (exec (.mul .v1 .v0 .v1) (holding (pow2 4096) (pow2 4096))) .v1 = some (1, 0, pow2 4096) := by decide +kernel

/-- 2.5: a two-chunk divisor; chunk 0 of the divisor being 0 is no division by zero; a divisor of 0. -/
theorem test_div_two_chunks :
    view (exec (.div .v2 .v0 .v1) (holding 0x700000000000000050000000000000009 0x10000000000000002)) .v2
      = some (0, 0, 0x6FFFFFFFFFFFFFFF7) := by decide +kernel
theorem test_div_by_zero : view (exec (.div .v0 .v0 .v1) (holding 9 0)) .v0 = some (2, 0, 9) := by decide +kernel
theorem test_mod_low_chunk_zero :
    view (exec (.mod .v2 .v0 .v1) (holding 0x100000000000000000000000000000005 (pow2 64))) .v2 = some (0, 0, 5) := by
  decide +kernel
theorem test_mod_by_zero : view (exec (.mod .v1 .v0 .v1) (holding 0 0)) .v1 = some (2, 0, 0) := by decide +kernel

/-- 2.6: the most significant differing chunk decides, not chunk 0. -/
theorem test_cmp_less :
    view (exec (.cmp .v0 .v1) (holding 0xFFFFFFFFFFFFFFFF (pow2 64))) .v0 = some (0, 0, 0xFFFFFFFFFFFFFFFF) := by
  decide +kernel
theorem test_cmp_greater :
    view (exec (.cmp .v1 .v0) (holding 1 2)) .v2 = some (0, 2, 0) := by decide +kernel

/-- 2.6: the top chunk counts; zero has bit length 0. -/
theorem test_bitlen_top : view (exec (.bitlen .v0) (holding (pow2 8128) 0)) .v1 = some (0, 0x1FC1, 0) := by decide +kernel
theorem test_bitlen_zero : view (exec (.bitlen .v1) (holding 1 0)) .v1 = some (0, 0, 0) := by decide +kernel

/-- 2.6: ISZERO looks at every chunk. -/
theorem test_iszero_top : view (exec (.iszero .v0) (holding (pow2 8128) 0)) .v1 = some (0, 0, 0) := by decide +kernel
theorem test_iszero_zero : view (exec (.iszero .v1) (holding 1 0)) .v1 = some (0, 1, 0) := by decide +kernel

/-- 2.7: a mode 11 descriptor with flags; an offset that 16 bits would truncate to 0 is refused. -/
theorem test_encode_flags : view (exec (.encode ⟨1, 1, 0, 11, 1⟩) State.reset) .v0 = some (0, 0x58060001, 0) := by decide +kernel
theorem test_encode_wide_offset : view (exec (.encode ⟨0, 0, 1, 0, 65536⟩) State.reset) .v0 = some (3, 0, 0) := by decide +kernel

/-- 2.8: all fields set; only reserved bits set. -/
theorem test_decode_all : view (exec (.decode 0xFFFFFFFF) State.reset) .v0 = some (0, 0x01F7FFFF, 0) := by decide +kernel
theorem test_decode_reserved : view (exec (.decode 0x07F80000) State.reset) .v0 = some (0, 0, 0) := by decide +kernel

/-- 2.7: the version is tested first; the first illegal offset of mode 6 is refused though the mask rule accepts it. -/
theorem test_validate_version : view (exec (.validate 0xFFFFFFFF) State.reset) .v0 = some (5, 0, 0) := by decide +kernel
theorem test_validate_offset : view (exec (.validate 0x30010040) State.reset) .v0 = some (4, 0, 0) := by decide +kernel

/-- 2.9: half a chunk; a sub-integer of the store itself. -/
theorem test_read_dword : view (exec (.read .v0 .v0 0x20010003) (holding store 0)) .v0 = some (0, 0xFEDCBA98, store) := by
  decide +kernel
theorem test_read_sub : view (exec (.read .v1 .v0 0x30010000) (holding store ones)) .v1 = some (0, 0, store) := by decide +kernel

/-- 2.10: the value is masked to the nibble; a sub-integer written from the store itself. -/
theorem test_write_nybble :
    view (exec (.write .v0 .v0 0x08010011 0x1F) (holding store 0)) .v0 = some (0, 0, 0xFEDCBA98765432F00123456789ABCDEF) := by
  decide +kernel
theorem test_write_sub :
    view (exec (.write .v0 .v0 0x30010001 0) (holding store 0)) .v0
      = some (0, 0, 0xFEDCBA98765432100123456789ABCDEFFEDCBA98765432100123456789ABCDEF) := by decide +kernel

/-- 2.11: InvalidCommand has priority over the version error. -/
theorem test_step_illegal : view (step (busy 0x0000000000000000_90010000_00004023 [])) .v0 = some (6, 0, 0) := by decide +kernel

/-- 70_reset_and_hazards.md R150: rst while a command is in progress; the command has no effect. -/
theorem test_step_rst :
    step (busy 0x0000000000000007_00000000_00000001 [⟨true, true, 0⟩, quietPort]) = .next { State.reset with host := [quietPort] } := rfl

/-- 2.12: the value 0x0102 in both byte orders. -/
theorem test_bytes :
    ((toBytes 0x0102 true)[0] = 2 ∧ (toBytes 0x0102 true)[1] = 1) ∧
      ((toBytes 0x0102 false)[1022] = 1 ∧ (toBytes 0x0102 false)[1023] = 2) := by
  simp only [toBytes, Vector.getElem_ofFn]
  decide +kernel

/-! ### Witnesses: states and operands that meet the hypotheses of the statements -/

theorem witness_ResetLeavesAllZero : (127 : Nat) < 128 := by decide

theorem witness_RstResetsFromAnyState :
    (portIn (busy 1 [⟨true, true, 0⟩])).rst = true ∧
    (portIn State.reset).rst = false ∧ step State.reset = .next State.reset ∧ AtReset State.reset ∧
      cmdReady State.reset = true ∧ portRspValid State.reset = false :=
  ⟨rfl, rfl, rfl, ⟨fun r => by cases r <;> rfl, rfl, rfl⟩, rfl, rfl⟩

theorem atReset_reset : AtReset State.reset := ⟨fun r => by cases r <;> rfl, rfl, rfl⟩

/-- The invariant holds of a reset engine and of one with a failed command in STATUS that is running another. -/
theorem witness_StepKeepsInvariant :
    (EngineInv State.reset ∧ step State.reset = .next State.reset) ∧
    (EngineInv { busy 0x301 [] with status := 1 } ∧ ∃ t, step { busy 0x301 [] with status := 1 } = .next t) :=
  ⟨⟨⟨by decide, by decide, by decide, fun _ _ => atReset_reset⟩, rfl⟩,
    ⟨⟨by decide, fun _ => rfl, fun _ => rfl, fun h => by simp [busy] at h⟩, ⟨_, rfl⟩⟩⟩

theorem witness_StepRunsTakenCommand :
    (portIn (busy 0x816 [])).rst = false ∧ (busy 0x816 []).taken = some 0x816 ∧ decode 0x816 = .ok (.bitlen .v2) :=
  ⟨rfl, rfl, by decide⟩

/-- An undefined opcode, and a defined one with a reserved bit. -/
theorem witness_IllegalPacketIsInvalidCommand :
    ((portIn (busy 0x25 [])).rst = false ∧ (busy 0x25 []).taken = some 0x25 ∧ decode 0x25 = .error .undefinedOpcode) ∧
    ((busy 0x4010 []).taken = some 0x4010 ∧ decode 0x4010 = .error .reservedBits) :=
  ⟨⟨rfl, rfl, by decide⟩, rfl, by decide⟩

theorem witness_HandshakeHoldsOneCommand :
    (Presents { State.reset with host := [presenting 0x16] } 0x16 ∧
      cmdReady { State.reset with host := [presenting 0x16] } = true) ∧
    (Presents (busy 0x816 [presenting 0x16]) 0x16 ∧ (busy 0x816 [presenting 0x16]).taken = some 0x816) :=
  ⟨⟨⟨rfl, rfl, rfl⟩, rfl⟩, ⟨rfl, rfl, rfl⟩, rfl⟩

theorem witness_IdleEngineKeepsState :
    (portIn (holding 5 6)).rst = false ∧ (portIn (holding 5 6)).cmdValid = false ∧ cmdReady (holding 5 6) = true :=
  ⟨rfl, rfl, rfl⟩

theorem witness_EveryCommandEndsWithResponse : (portIn (busy 0 [])).rst = false ∧ (busy 0 []).taken = some 0 := ⟨rfl, rfl⟩

/-- A packet with every ignored field of BITLEN set. -/
theorem witness_EncodeOfDecodeClearsIgnored : decode 0x0000000000000007DEADBEEF00003B16 = .ok (.bitlen .v2) := by decide

theorem witness_IgnoredFieldsDoNotMatter :
    (packetOpcode 0x801 = Opcode.init.number ∧ packetOpcode 0x1 = Opcode.init.number ∧
      packetRsv 0x801 = packetRsv 0x1 ∧ AgreeOnUsed (fieldUse .init) 0x801 0x1) ∧
    descModeIs true 0x28010000 = true ∧ descModeIs false 0x30010000 = true ∧
    ((fieldUse (Instr.cmp .v0 .v1).opcode).rd = false ∧ (fieldUse (Instr.init .v0 1).opcode).ra = false ∧
      (fieldUse (Instr.bitlen .v0).opcode).rb = false ∧ (fieldUse (Instr.bitlen .v0).opcode).desc = false ∧
      (fieldUse (Instr.encode ⟨0, 0, 1, 0, 0⟩).opcode).dataBits ≤ 39) ∧
    ((AsmLine.readScalar .v2 0x28010000).legal = true ∧ assemble (.readScalar .v2 0x28010000) = .read .v0 .v2 0x28010000) ∧
    (AsmLine.writeScalar .v2 0x28010000 1).legal = true ∧ (AsmLine.writeSub .v2 0x30010000 .v1).legal = true := by
  refine ⟨⟨by decide, by decide, by decide, ?_⟩, by decide, by decide, by decide, by decide, by decide, by decide⟩
  refine ⟨by decide, by decide, by decide, by decide, fun b _ => ?_⟩
  rw [show packetData 0x801 = packetData 0x1 by decide]

theorem witness_InitCreatesValue : (0 : Nat) < 127 ∧ (127 : Nat) < 128 := by decide

/-- No carry (the reset state); a carry that ripples from chunk 0 out of chunk 127 (2^8192 - 1 plus 1). -/
theorem witness_AddPropagatesCarry :
    (∃ carry : Nat → Nat, carry 0 = 0 ∧ (∀ i, i < 128 →
        carry (i + 1) = (chunkOf State.reset .v0 i + chunkOf State.reset .v1 i + carry i) >>> 64) ∧ carry 128 = 0) ∧
    (∃ carry : Nat → Nat, carry 0 = 0 ∧ (∀ i, i < 128 →
        carry (i + 1) = (chunkOf (holding ones 1) .v0 i + chunkOf (holding ones 1) .v1 i + carry i) >>> 64) ∧
      carry 128 ≠ 0) :=
  ⟨⟨fun _ => 0, rfl, by decide +kernel, rfl⟩, ⟨fun i => if i = 0 then 0 else 1, rfl, by decide +kernel, by decide⟩⟩

/-- 0 - 1 borrows out of every chunk; 0 - 0 out of none. -/
theorem witness_SubPropagatesBorrow :
    (∃ borrow : Nat → Nat, borrow 0 = 0 ∧ ∀ i, i < 128 →
      borrow (i + 1) = if chunkOf (holding 0 1) .v0 i < chunkOf (holding 0 1) .v1 i + borrow i then 1 else 0) ∧
    (∃ borrow : Nat → Nat, borrow 0 = 0 ∧ ∀ i, i < 128 →
      borrow (i + 1) = if chunkOf State.reset .v0 i < chunkOf State.reset .v1 i + borrow i then 1 else 0) :=
  ⟨⟨fun i => if i = 0 then 0 else 1, rfl, by decide +kernel⟩, ⟨fun _ => 0, rfl, by decide +kernel⟩⟩

/-- 0 * 0 fits; (2^8192 - 1)^2 does not. -/
theorem witness_MulIsSchoolbook :
    (∀ k, 128 ≤ k → k < 256 → schoolbook 0 0 k = 0) ∧ (∃ k, 128 ≤ k ∧ k < 256 ∧ schoolbook ones ones k ≠ 0) := by
  constructor
  · intro k _ _
    by_contra h
    have hv := (schoolbook_value 0 0).1
    have := productValue_high ‹128 ≤ k› ‹k < 256› h
    rw [hv] at this
    exact absurd this (by decide +kernel)
  · by_contra h
    obtain ⟨hv, hlt⟩ := schoolbook_value ones ones
    have hz : ∀ k, 128 ≤ k → k < 256 → schoolbook ones ones k = 0 := fun k h1 h2 => by
      by_contra hne
      exact h ⟨k, h1, h2, hne⟩
    have := sumChunks_lt_W fun k => BitVec.ofNat 64 (schoolbook ones ones k)
    rw [← productValue_low hlt hz, hv] at this
    exact absurd this (by decide +kernel)

theorem witness_DivIsFloorQuotient : val (holding 9 5) .v1 ≠ 0 ∧ val (holding 9 0) .v1 = 0 := by decide +kernel
theorem witness_ModIsRemainder : val (holding 9 5) .v1 ≠ 0 ∧ val (holding 9 0) .v1 = 0 := by decide +kernel
theorem witness_RestoringDivisionAgrees : val (holding ones 3) .v1 ≠ 0 := by decide +kernel

/-- All chunks equal; the top chunk differs; only chunk 0 differs. -/
theorem witness_CmpTopDifferingChunkDecides :
    (∀ i, i < 128 → chunkOf (holding ones ones) .v0 i = chunkOf (holding ones ones) .v1 i) ∧
    ((∀ j, 127 < j → j < 128 → chunkOf (holding (pow2 8191) 1) .v0 j = chunkOf (holding (pow2 8191) 1) .v1 j) ∧
      chunkOf (holding (pow2 8191) 1) .v1 127 < chunkOf (holding (pow2 8191) 1) .v0 127) ∧
    ((∀ j, 0 < j → j < 128 → chunkOf (holding 5 6) .v0 j = chunkOf (holding 5 6) .v1 j) ∧
      chunkOf (holding 5 6) .v0 0 < chunkOf (holding 5 6) .v1 0) := by
  refine ⟨by decide +kernel, ⟨fun j h1 h2 => by omega, by decide +kernel⟩, ?_, by decide +kernel⟩
  have h : ∀ j, j < 128 → 0 < j → chunkOf (holding 5 6) .v0 j = chunkOf (holding 5 6) .v1 j := by decide +kernel
  exact fun j h1 h2 => h j h2 h1

theorem witness_BitlenIsLeastBound : val State.reset .v0 = 0 := by decide +kernel

theorem witness_IszeroLooksAtEveryChunk :
    (∀ i, i < 128 → chunkOf State.reset .v0 i = 0) ∧ (127 < 128 ∧ chunkOf (holding (pow2 8191) 0) .v0 127 ≠ 0) := by
  decide +kernel

theorem witness_ArithmeticLawsByValue :
    val (holding ones 0) .v0 + val (holding ones 0) .v1 < 2 ^ Config.W ∧
    2 ^ Config.W ≤ val (holding ones 1) .v0 + val (holding ones 1) .v1 ∧
    val (holding ones 1) .v0 * val (holding ones 1) .v1 < 2 ^ Config.W ∧
    2 ^ Config.W ≤ val (holding (pow2 8191) 2) .v0 * val (holding (pow2 8191) 2) .v1 ∧
    val (holding ones 1) .v1 ≠ 0 ∧ val (holding ones 0) .v1 = 0 := by decide +kernel

theorem witness_SubUndoesAdd :
    val (holding 0 1) .v0 + val (holding 0 1) .v1 < 2 ^ Config.W ∧ (WReg.v2 ≠ .v1 ∧ WReg.v2 ≠ .v0) ∧
      val (holding 0 1) .v1 ≠ 0 ∧ val (holding 0 1) .v0 = 0 := by decide +kernel

theorem witness_MulOneZeroCommutes : val (holding ones 1) .v1 = 1 ∧ val (holding ones 0) .v1 = 0 := by decide +kernel

theorem witness_DivModRebuildsDividend :
    val (holding ones 7) .v1 ≠ 0 ∧ val (holding ones ones) .v1 ≤ val (holding ones ones) .v0 ∧ WReg.v0 ≠ .v1 := by
  decide +kernel

theorem witness_ValueIsSumOfChunks : (127 : Nat) < 128 ∧ 2 ^ 8192 - 1 < 2 ^ Config.W := by decide +kernel

theorem witness_GranularityTable :
    Mode.ofField 11 = some .sub4096 ∧ Mode.ofField 12 = none ∧ 1 ≤ Mode.nybble.number ∧ Mode.qword.number ≤ 5 ∧
      5 ≤ Mode.qword.number := by decide

theorem witness_UnitsTileTheRegister :
    4095 < Mode.sub4096.unitBits ∧ (8191 < 8192) ∧ (4096 * 1 ≤ 8191 ∧ 8191 < 4096 * 1 + Mode.sub4096.unitBits) ∧
      Mode.bit.isScalar = true ∧ 8191 < Mode.bit.unitCount := by decide

theorem witness_ByteImageRoundTrip : (1023 : Nat) < 1024 := by decide

/-- The last unit of mode 0, of mode 5 and of mode 11. -/
theorem names_bit : NamesUnit 0x00011FFF .bit 8191 := by unfold NamesUnit; decide
theorem names_qword : NamesUnit 0x2801007F .qword 127 := by unfold NamesUnit; decide
theorem names_sub4096 : NamesUnit 0x58010001 .sub4096 1 := by unfold NamesUnit; decide

/-- A reserved bit, a reserved mode, the first illegal offset. -/
theorem range_reserved : OutOfRangeDesc 0x04000000 := ⟨by decide, .inl (by decide)⟩
theorem range_mode : OutOfRangeDesc 0x60000000 := ⟨by decide, .inr (.inl (by decide))⟩
theorem range_offset : OutOfRangeDesc 0x30010040 := ⟨by decide, .inr (.inr ⟨.sub128, by decide, by decide⟩)⟩

theorem witness_CheckDecidesValidity :
    NamesUnit 0x00011FFF .bit 8191 ∧ descVersion 0x80000000 = 1 ∧ OutOfRangeDesc 0x04000000 ∧ OutOfRangeDesc 0x60000000 ∧
      OutOfRangeDesc 0x30010040 := ⟨names_bit, by decide, range_reserved, range_mode, range_offset⟩

theorem witness_MaskRuleIsWeaker :
    (0x1FFF : BitVec 16).toNat < 2 ^ (13 - Mode.bit.number) ∧ 1 ≤ Mode.sub4096.number := by decide

/-- An ENCODE packet; two DATA words that differ in bits 63:39 only; the largest legal offset, a reserved mode, the first
illegal offset of a mode. -/
theorem witness_EncodeBuildsDescriptor :
    (packetRsv 0x20 = 0 ∧ packetOpcode 0x20 = 0x20) ∧
      ((0xABCDEF9300000005 : BitVec 64).toNat % 2 ^ 39 = (0x0000001300000005 : BitVec 64).toNat % 2 ^ 39) ∧
    (Mode.ofField 0 = some .bit ∧ (8191 : BitVec 32).toNat < Mode.bit.unitCount) ∧ 11 < (12 : BitVec 4).toNat ∧
      (Mode.ofField 11 = some .sub4096 ∧ Mode.sub4096.unitCount ≤ (2 : BitVec 32).toNat) := by decide

theorem witness_DecodeReturnsFields : (25 ≤ 63) ∧ (18 < 19) := by decide

theorem witness_EncodeThenDecodeAndValidate :
    (Mode.ofField 0 = some .bit ∧ (8191 : BitVec 32).toNat < Mode.bit.unitCount) ∧ NamesUnit 0x58010001 .sub4096 1 ∧
      ∃ t', exec (.encode ⟨0, 0, 1, 11, 1⟩) State.reset = .next t' ∧ EndsScalar State.reset t' 0x58010001 :=
  ⟨by decide, names_sub4096, _, rfl, ⟨rfl, by decide, fun r => by cases r <;> rfl, rfl, rfl, rfl⟩⟩

theorem witness_ValidateAnswersCheck :
    NamesUnit 0x2801007F .qword 127 ∧ descVersion 0xFFFFFFFF = 1 ∧ OutOfRangeDesc 0x30010040 :=
  ⟨names_qword, by decide, range_offset⟩

theorem witness_ReadGivesUnitValue :
    (NamesUnit 0x2801007F .qword 127 ∧ Mode.qword.number ≤ 5) ∧ (NamesUnit 0x58010001 .sub4096 1 ∧ 6 ≤ Mode.sub4096.number) ∧
      descVersion 0x90010000 = 1 ∧ OutOfRangeDesc 0x04000000 :=
  ⟨⟨names_qword, by decide⟩, ⟨names_sub4096, by decide⟩, by decide, range_reserved⟩

theorem witness_ReadScalarFromChunk : NamesUnit 0x00011FFF .bit 8191 ∧ Mode.bit.number ≤ 5 := ⟨names_bit, by decide⟩

theorem witness_ReadSubIntegerCopiesChunks :
    NamesUnit 0x58010001 .sub4096 1 ∧ 6 ≤ Mode.sub4096.number ∧ 63 < Mode.sub4096.cpu ∧ Mode.sub4096.cpu ≤ 64 :=
  ⟨names_sub4096, by decide, by decide, by decide⟩

theorem witness_WriteReplacesExactlyTheUnit :
    NamesUnit 0x00011FFF .bit 8191 ∧ ¬(Mode.bit.unitBits * 8191 ≤ 8190 ∧ 8190 < Mode.bit.unitBits * 8191 + Mode.bit.unitBits) ∧
      NamesUnit 0x58010001 .sub4096 1 ∧ descVersion 0x90010000 = 1 ∧ OutOfRangeDesc 0x60000000 :=
  ⟨names_bit, by decide, names_sub4096, by decide, range_mode⟩

theorem witness_WriteScalarIsMaskedStore :
    (NamesUnit 0x00011FFF .bit 8191 ∧ Mode.bit.number ≤ 4) ∧ (NamesUnit 0x2801007F .qword 127 ∧ Mode.qword.number = 5) ∧
      126 ≠ 8191 / Mode.bit.upc :=
  ⟨⟨names_bit, by decide⟩, ⟨names_qword, by decide⟩, by decide⟩

theorem witness_WriteSubIntegerCopiesChunks :
    NamesUnit 0x58010001 .sub4096 1 ∧ 6 ≤ Mode.sub4096.number ∧ 63 < Mode.sub4096.cpu ∧
      ¬(Mode.sub4096.cpu * 1 ≤ 63 ∧ 63 < Mode.sub4096.cpu * 1 + Mode.sub4096.cpu) :=
  ⟨names_sub4096, by decide, by decide, by decide⟩

/-- The last bit and the byte just below the top byte are disjoint. -/
theorem witness_DisjointUnitsReadAsBefore :
    NamesUnit 0x00011FFF .bit 8191 ∧ 1022 < Mode.byte.unitCount ∧
      Mode.byte.unitBits * 1022 + Mode.byte.unitBits ≤ Mode.bit.unitBits * 8191 ∧
      ∃ t, exec (.write .v0 .v0 0x00011FFF 1) State.reset = .next t :=
  ⟨names_bit, by decide, by decide, _, rfl⟩

theorem witness_ReadAfterWriteReturnsValue :
    (NamesUnit 0x00011FFF .bit 8191 ∧ Mode.bit.number ≤ 5) ∧ (NamesUnit 0x58010001 .sub4096 1 ∧ 6 ≤ Mode.sub4096.number) :=
  ⟨⟨names_bit, by decide⟩, names_sub4096, by decide⟩

theorem witness_WriteBackChangesNothing :
    NamesUnit 0x58010001 .sub4096 1 ∧ 6 ≤ Mode.sub4096.number ∧ WReg.v1 ≠ .v0 := ⟨names_sub4096, by decide, by decide⟩

theorem witness_DecompositionRoundTrip : 6 ≤ Mode.sub128.number ∧ WReg.v0 ≠ .v1 ∧ WReg.v0 ≠ .v2 ∧ WReg.v1 ≠ .v2 := by decide

/-- The descriptors of 2.9's last row: they differ in all three flag bits. -/
theorem witness_FlagBitsAreIgnored : SameButFlags 0x10010000 0x10060000 ∧ (0x10010000 : Desc) ≠ 0x10060000 :=
  ⟨⟨by decide, by decide, by decide, by decide⟩, by decide⟩

theorem witness_FailureIsPrecise :
    (∃ t, exec (.div .v0 .v0 .v1) (holding 9 0) = .next t ∧ t.status ≠ 0) ∧
    (portIn (busy 0 [])).rst = false ∧ (busy 0 []).taken = some 0 ∧ ∃ t, step (busy 0 []) = .next t ∧ t.status ≠ 0 :=
  ⟨⟨_, exec_div_value _ _ _ _, by rw [if_pos (by decide +kernel)]; decide⟩, rfl, rfl, _, rfl, by decide⟩

theorem witness_OnlyDestinationIsWritten :
    (∃ t, exec (.init .v0 5) State.reset = .next t) ∧ destOf (.init .v0 5) ≠ some .v1 ∧ destOf (.cmp .v0 .v1) ≠ some .v0 :=
  ⟨⟨_, rfl⟩, by decide, by decide⟩

theorem witness_AssemblerWritesCanonical :
    AsmLine.legal (.readScalar .v2 0x10010000) = true ∧ WellFormed (.read .v0 .v2 0x10010000) ∧
      (descMode 0x10010000).toNat ≤ 11 ∧ WellFormed (.write .v0 .v1 0x58010001 0) ∧ (descMode 0x58010001).toNat ≤ 11 := by
  decide

end Sys2Proof.Tests
end

section
/-! The reset state, read chunk by chunk and as values (10_state.md R11, R23). -/

namespace Sys2Proof.Machine

/-- Every chunk of the register that holds 0 is 0. -/
@[simp] theorem chunk_zero (i : Nat) : chunk 0 i = 0 := BitVec.extractLsb'_zero

/-- After reset every chunk is 0, those past chunk 127 included. -/
theorem chunk_readWide_reset (r : WReg) (i : Nat) : chunk (readWide State.reset r) i = 0 := by
  rw [readWide_reset, chunk_zero]

@[simp] theorem val_reset (r : WReg) : val State.reset r = 0 := by
  rw [val, readWide_reset, BitVec.ofNat_eq_ofNat, BitVec.toNat_zero]

@[simp] theorem reset_status : State.reset.status = 0 := rfl

@[simp] theorem reset_result : State.reset.result = 0 := rfl

/-- Settles O1: every register reads as 0 after reset (`readWide_reset`), so each of its chunks and its value are 0, and
STATUS and RESULT start at 0. -/
theorem resetLeavesAllZero : Obligations.ResetLeavesAllZero :=
  ⟨fun r i _ => chunk_readWide_reset r i, val_reset, reset_status, reset_result⟩

end Sys2Proof.Machine
end

section
/-! Illegal packets (30_encoding.md R58): which packets spell no command, and how the step answers one. -/

namespace Sys2Proof.Machine

theorem mem_opcode_all (op : Opcode) : op ∈ Opcode.all := by cases op <;> decide

/-- An opcode field selects no command exactly when it is not one of the 14 numbers of R56. -/
theorem forall_ne_number_iff (n : BitVec 8) :
    (∀ op : Opcode, n ≠ op.number) ↔
      n.toNat ∉ [0x01, 0x10, 0x11, 0x12, 0x13, 0x14, 0x15, 0x16, 0x17, 0x20, 0x21, 0x22, 0x23, 0x24] := by
  have hall : [0x01, 0x10, 0x11, 0x12, 0x13, 0x14, 0x15, 0x16, 0x17, 0x20, 0x21, 0x22, 0x23, 0x24] =
      Opcode.all.map fun op => op.number.toNat := rfl
  rw [hall]
  constructor
  · intro h hn
    obtain ⟨op, -, hop⟩ := List.mem_map.mp hn
    exact h op (BitVec.eq_of_toNat_eq hop.symm)
  · rintro h op rfl
    exact h (List.mem_map_of_mem (mem_opcode_all op))

/-- With `rst` not asserted, a command that was taken runs at the state in which the command has ended. -/
theorem step_of_taken {s : State} {p : Packet} (hr : (portIn s).rst = false) (ht : s.taken = some p) :
    step s = runPacket p (endCommand s) := by
  simp [step, hr, ht]

theorem runPacket_of_error {p : Packet} {e : DecodeError} (h : decode p = .error e) (s : State) :
    runPacket p s = .next (raise .invalidCommand s) := by
  rw [runPacket, h]

/-- Settles O6: the decoder's two refusals (`decode_eq_error`) are R58's two defects, and a packet refused is answered by
`raise .invalidCommand`, whose end is `raise_ends`. -/
theorem illegalPacketIsInvalidCommand : Obligations.IllegalPacketIsInvalidCommand := by
  refine ⟨fun p => ?_, ⟨.undefinedOpcode, rfl⟩, fun s p e hr ht he => ?_⟩
  · rw [decode_eq_error, forall_ne_number_iff]
  · have hend := raise_ends .invalidCommand (endCommand s)
    refine ⟨_, (step_of_taken hr ht).trans (runPacket_of_error he _), hend.status, hend.result, fun r => ?_, rfl, rfl⟩
    rw [hend.wide r, readWide_endCommand]

end Sys2Proof.Machine
end

section
/-! Ignored fields (30_encoding.md R57): at decoding, where the mode of READ and WRITE leaves a field unused, and in what the
encoder and the assembler write. -/

namespace Sys2Proof.Machine

/-! ### Decoding -/

/-- Once the opcode field is known, only `rsv` decides whether the packet spells a command. -/
theorem decode_of_opcode {op : Opcode} {p : Packet} (h : packetOpcode p = op.number) :
    decode p = if packetRsv p = 0 then .ok (operands op p) else .error .reservedBits := by
  rw [decode, h, opcodeOf_number]

/-- ENCODE reads DATA bits 38:0 only (R60). -/
theorem encodeParams_congr {v v' : BitVec 64} (h : ∀ b, b < 39 → v.getLsbD b = v'.getLsbD b) :
    encodeParams v = encodeParams v' := by
  have hfield : ∀ start len, start + len ≤ 39 → v.extractLsb' start len = v'.extractLsb' start len := by
    intro start len hle
    apply BitVec.eq_of_getLsbD_eq
    intro i hi
    simp only [BitVec.getLsbD_extractLsb', h (start + i) (by omega)]
  simp only [encodeParams, hfield 38 1 (by decide), hfield 37 1 (by decide), hfield 36 1 (by decide),
    hfield 32 4 (by decide), hfield 0 32 (by decide)]

/-- The operands of a command are read from the fields its row of R56 uses and from no other. -/
theorem operands_congr {op : Opcode} {p p' : Packet} (h : AgreeOnUsed (fieldUse op) p p') :
    operands op p = operands op p' := by
  obtain ⟨hrd, hra, hrb, hdesc, hdata⟩ := h
  cases op with
  | init => rw [operands, operands, hrd rfl, BitVec.eq_of_getLsbD_eq hdata]
  | add | sub | mul | div | mod => simp only [operands, hrd rfl, hra rfl, hrb rfl]
  | cmp => rw [operands, operands, hra rfl, hrb rfl]
  | bitlen | iszero => simp only [operands, hra rfl]
  | encode => rw [operands, operands, encodeParams_congr hdata]
  | decode | validate => simp only [operands, hdesc rfl]
  | read => rw [operands, operands, hrd rfl, hra rfl, hdesc rfl]
  | write => rw [operands, operands, hrd rfl, hra rfl, hdesc rfl, BitVec.eq_of_getLsbD_eq hdata]

theorem decode_congr {op : Opcode} {p p' : Packet} (hp : packetOpcode p = op.number) (hp' : packetOpcode p' = op.number)
    (hrsv : packetRsv p = packetRsv p') (h : AgreeOnUsed (fieldUse op) p p') : decode p = decode p' := by
  rw [decode_of_opcode hp, decode_of_opcode hp', hrsv, operands_congr h]

/-! ### Fields the mode of READ and WRITE leaves unused -/

theorem descModeIs_iff {scalar : Bool} {d : Desc} :
    descModeIs scalar d = true ↔ ∃ m, Mode.ofField (descMode d) = some m ∧ m.isScalar = scalar := by
  unfold descModeIs
  cases Mode.ofField (descMode d) with
  | none => simp
  | some m => simp

/-- A descriptor of a known kind of mode fails the check or names a unit of that kind. -/
theorem checkDesc_of_descModeIs {scalar : Bool} {d : Desc} (h : descModeIs scalar d = true) :
    (∃ e, checkDesc d = .error e) ∨ ∃ m k, NamesUnit d m k ∧ m.isScalar = scalar := by
  obtain ⟨m, hm, hs⟩ := descModeIs_iff.mp h
  rcases checkDesc_cases d with ⟨m', k, hok⟩ | herr | herr
  · obtain ⟨-, -, hm', -, -⟩ := checkDesc_ok.mp hok
    obtain rfl : m = m' := Option.some.inj (hm.symm.trans hm')
    exact .inr ⟨m, k, checkDesc_ok.mp hok, hs⟩
  · exact .inl ⟨_, herr⟩
  · exact .inl ⟨_, herr⟩

/-- READ of modes 0 to 5 answers in RESULT and does not use `rd` (41_index_codec.md R109). -/
theorem exec_read_ignores_rd {d : Desc} (h : descModeIs true d = true) (rd rd' ra : WReg) (s : State) :
    exec (.read rd ra d) s = exec (.read rd' ra d) s := by
  rcases checkDesc_of_descModeIs h with ⟨e, he⟩ | ⟨m, k, hu, hm⟩
  · rw [exec_read_error _ _ _ he, exec_read_error _ _ _ he]
  · rw [execRead_scalar hu hm, execRead_scalar hu hm]

/-- WRITE of modes 0 to 5 takes DATA and does not use `ra` (R112). -/
theorem exec_write_ignores_ra {d : Desc} (h : descModeIs true d = true) (rd ra ra' : WReg) (v : BitVec 64) (s : State) :
    exec (.write rd ra d v) s = exec (.write rd ra' d v) s := by
  rcases checkDesc_of_descModeIs h with ⟨e, he⟩ | ⟨m, k, hu, hm⟩
  · rw [exec_write_error _ _ _ _ he, exec_write_error _ _ _ _ he]
  · rw [execWrite_scalar hu hm, execWrite_scalar hu hm]

/-- WRITE of modes 6 to 11 takes V[ra] and does not use DATA (R114). -/
theorem exec_write_ignores_data {d : Desc} (h : descModeIs false d = true) (rd ra : WReg) (v v' : BitVec 64) (s : State) :
    exec (.write rd ra d v) s = exec (.write rd ra d v') s := by
  rcases checkDesc_of_descModeIs h with ⟨e, he⟩ | ⟨m, k, hu, hm⟩
  · rw [exec_write_error _ _ _ _ he, exec_write_error _ _ _ _ he]
  · rw [execWrite_sub hu hm, execWrite_sub hu hm]

/-! ### The encoder -/

/-- The parameter word ends at bit 38 (R60). -/
theorem getLsbD_encodeWord_of_ge (q : EncodeParams) {b : Nat} (hb : 39 ≤ b) : (encodeWord q).getLsbD b = false := by
  simp only [encodeWord, BitVec.getLsbD_or, BitVec.getLsbD_shiftLeft, BitVec.getLsbD_setWidth]
  rw [BitVec.getLsbD_of_ge q.sign _ (by omega), BitVec.getLsbD_of_ge q.csel _ (by omega),
    BitVec.getLsbD_of_ge q.le _ (by omega), BitVec.getLsbD_of_ge q.mode _ (by omega),
    BitVec.getLsbD_of_ge q.offset _ (by omega)]
  simp

/-- The five fields a packet is assembled from are V0 or 0 wherever the command does not use them (R57). -/
structure UnusedAreZero (u : FieldUse) (rd ra rb : WReg) (desc : Desc) (data : BitVec 64) : Prop where
  rd   : u.rd = false → rd = .v0
  ra   : u.ra = false → ra = .v0
  rb   : u.rb = false → rb = .v0
  desc : u.desc = false → desc = 0
  data : ∀ b, u.dataBits ≤ b → data.getLsbD b = false

/-- Every command is assembled by `mkPacket`, from fields that are zero where its row of R56 marks "-". -/
theorem encode_eq_mkPacket (i : Instr) : ∃ rd ra rb desc data,
    encode i = mkPacket i.opcode rd ra rb desc data ∧ UnusedAreZero (fieldUse i.opcode) rd ra rb desc data := by
  have hfull : ∀ (v : BitVec 64) b, 64 ≤ b → v.getLsbD b = false := BitVec.getLsbD_of_ge
  have hzero : ∀ b, 0 ≤ b → (0 : BitVec 64).getLsbD b = false := fun _ _ => BitVec.getLsbD_zero
  cases i with
  | init rd v => exact ⟨_, _, _, _, _, rfl, nofun, fun _ => rfl, fun _ => rfl, fun _ => rfl, hfull v⟩
  | add | sub | mul | div | mod => exact ⟨_, _, _, _, _, rfl, nofun, nofun, nofun, fun _ => rfl, hzero⟩
  | cmp ra rb => exact ⟨_, _, _, _, _, rfl, fun _ => rfl, nofun, nofun, fun _ => rfl, hzero⟩
  | bitlen | iszero => exact ⟨_, _, _, _, _, rfl, fun _ => rfl, nofun, fun _ => rfl, fun _ => rfl, hzero⟩
  | encode q =>
    exact ⟨_, _, _, _, _, rfl, fun _ => rfl, fun _ => rfl, fun _ => rfl, fun _ => rfl,
      fun _ hb => getLsbD_encodeWord_of_ge q hb⟩
  | decode | validate => exact ⟨_, _, _, _, _, rfl, fun _ => rfl, fun _ => rfl, fun _ => rfl, nofun, hzero⟩
  | read rd ra d => exact ⟨_, _, _, _, _, rfl, nofun, nofun, fun _ => rfl, nofun, hzero⟩
  | write rd ra d v => exact ⟨_, _, _, _, _, rfl, nofun, nofun, fun _ => rfl, nofun, hfull v⟩

theorem encode_unused_fields (i : Instr) :
    ((fieldUse i.opcode).rd = false → packetRd (encode i) = 0) ∧
    ((fieldUse i.opcode).ra = false → packetRa (encode i) = 0) ∧
    ((fieldUse i.opcode).rb = false → packetRb (encode i) = 0) ∧
    ((fieldUse i.opcode).desc = false → packetDesc (encode i) = 0) ∧
    ∀ b, (fieldUse i.opcode).dataBits ≤ b → (packetData (encode i)).getLsbD b = false := by
  obtain ⟨rd, ra, rb, desc, data, henc, hz⟩ := encode_eq_mkPacket i
  rw [henc, packetRd_mkPacket, packetRa_mkPacket, packetRb_mkPacket, packetDesc_mkPacket, packetData_mkPacket]
  exact ⟨fun h => congrArg WReg.number (hz.rd h), fun h => congrArg WReg.number (hz.ra h),
    fun h => congrArg WReg.number (hz.rb h), hz.desc, hz.data⟩

/-! ### The assembler -/

/-- A canonical READ of modes 0 to 5 has V0 as `rd` (R63). -/
theorem readFieldsCanonical_scalar {d : Desc} (h : descModeIs true d = true) (rd : WReg) :
    readFieldsCanonical rd d = (rd == .v0) := by
  obtain ⟨m, hm, hs⟩ := descModeIs_iff.mp h
  simp [readFieldsCanonical, hm, hs]

/-- A READ of modes 6 to 11 uses `rd`, so it is canonical with any. -/
theorem readFieldsCanonical_sub {d : Desc} (h : descModeIs false d = true) (rd : WReg) :
    readFieldsCanonical rd d = true := by
  obtain ⟨m, hm, hs⟩ := descModeIs_iff.mp h
  simp [readFieldsCanonical, hm, hs]

/-- A canonical WRITE of modes 0 to 5 has V0 as `ra` (R63). -/
theorem writeFieldsCanonical_scalar {d : Desc} (h : descModeIs true d = true) (ra : WReg) (v : BitVec 64) :
    writeFieldsCanonical ra d v = (ra == .v0) := by
  obtain ⟨m, hm, hs⟩ := descModeIs_iff.mp h
  simp [writeFieldsCanonical, hm, hs]

/-- A canonical WRITE of modes 6 to 11 has 0 in DATA (R63). -/
theorem writeFieldsCanonical_sub {d : Desc} (h : descModeIs false d = true) (ra : WReg) (v : BitVec 64) :
    writeFieldsCanonical ra d v = (v == 0) := by
  obtain ⟨m, hm, hs⟩ := descModeIs_iff.mp h
  simp [writeFieldsCanonical, hm, hs]

/-- The assembler writes canonical commands: of its lines only the four forms of READ and WRITE have a field to keep 0, and
each is written for its own modes. -/
theorem wellFormed_assemble {a : AsmLine} (h : a.legal = true) : WellFormed (assemble a) := by
  cases a with
  | readScalar va d => exact readFieldsCanonical_scalar h .v0
  | readSub vd va d => exact readFieldsCanonical_sub h vd
  | writeScalar vd d v => exact writeFieldsCanonical_scalar h .v0 v
  | writeSub vd d va => exact writeFieldsCanonical_sub h va 0
  | _ => rfl

theorem packetRd_encode_read {rd ra : WReg} {d : Desc} (hw : WellFormed (.read rd ra d)) (h : descModeIs true d = true) :
    packetRd (encode (.read rd ra d)) = 0 := by
  have hrd : rd = .v0 := eq_of_beq ((readFieldsCanonical_scalar h rd).symm.trans hw)
  rw [encode, packetRd_mkPacket, hrd, WReg.number]

theorem packetRa_encode_write {rd ra : WReg} {d : Desc} {v : BitVec 64} (hw : WellFormed (.write rd ra d v))
    (h : descModeIs true d = true) : packetRa (encode (.write rd ra d v)) = 0 := by
  have hra : ra = .v0 := eq_of_beq ((writeFieldsCanonical_scalar h ra v).symm.trans hw)
  rw [encode, packetRa_mkPacket, hra, WReg.number]

theorem packetData_encode_write {rd ra : WReg} {d : Desc} {v : BitVec 64} (hw : WellFormed (.write rd ra d v))
    (h : descModeIs false d = true) : packetData (encode (.write rd ra d v)) = 0 := by
  have hv : v = 0 := eq_of_beq ((writeFieldsCanonical_sub h ra v).symm.trans hw)
  rw [encode, packetData_mkPacket, hv]

/-- Settles O12: decoding reads the used fields only (`decode_congr`); READ and WRITE do not read the field their mode leaves
unused (`exec_read_ignores_rd` and the two about WRITE); `encode` writes 0 in the unused fields of R56
(`encode_unused_fields`); and the assembler's lines are canonical (`wellFormed_assemble`), so the fields their mode leaves
unused are 0. -/
theorem ignoredFieldsDoNotMatter : Obligations.IgnoredFieldsDoNotMatter := by
  refine ⟨fun op p p' => decode_congr, fun s d rd rd' ra h => exec_read_ignores_rd h rd rd' ra s,
    fun s d rd ra ra' v h => exec_write_ignores_ra h rd ra ra' v s,
    fun s d rd ra v v' h => exec_write_ignores_data h rd ra v v' s, encode_unused_fields, fun a ha => ?_⟩
  have hw := wellFormed_assemble ha
  constructor
  · intro rd ra d hasm hd
    rw [hasm] at hw ⊢
    exact packetRd_encode_read hw hd
  · intro rd ra d v hasm
    rw [hasm] at hw ⊢
    exact ⟨packetRa_encode_write hw, packetData_encode_write hw⟩

end Sys2Proof.Machine
end

section
/-! The chunk store's arithmetic commands (40_arithmetic.md R71 to R79): each command's answer, chunk by chunk where the spec
gives a loop and on whole values where it gives a formula. -/

namespace Sys2Proof.Machine

/-! ### Ends of a command whose result goes to a wide register -/

section
variable {i : Instr} {s : State} {rd : WReg} {r : Except ErrorKind Wide}

/-- A result that is Ok is written to the destination. -/
theorem exec_endsWide (hi : exec i s = .next (respondWide rd r s)) {x : Wide} (hr : r = .ok x) :
    ∃ t, exec i s = .next t ∧ EndsWide s t rd x := by
  subst hr
  exact ⟨_, hi, respondWide_ok rd x s⟩

/-- A failure raises its code and leaves every wide register unchanged (60_exceptions.md R133). -/
theorem exec_endsFailed (hi : exec i s = .next (respondWide rd r s)) {e : ErrorKind} (hr : r = .error e) :
    ∃ t, exec i s = .next t ∧ EndsFailed s t e.code := by
  subst hr
  exact ⟨_, hi, respondWide_error rd e s⟩

end

section
variable (s : State) (rd ra rb : WReg)

theorem exec_add : exec (.add rd ra rb) s = .next (respondWide rd (addWide (readWide s ra) (readWide s rb)) s) := rfl

theorem exec_sub : exec (.sub rd ra rb) s = .next (respondWide rd (.ok (subWide (readWide s ra) (readWide s rb))) s) := rfl

end

/-- The value of a chunk sum is the register with those chunks. -/
theorem ofValue_sumChunks (w : Nat → Chunk) : ofValue (sumChunks w 128) = ofChunks w := rfl

/-! ### INIT (R71) -/

/-- The register INIT builds: the value in chunk 0, every other chunk 0. -/
def zeroExtend (v : BitVec 64) : Wide := ofChunks fun i => if i = 0 then v else 0

theorem exec_init (s : State) (rd : WReg) (v : BitVec 64) :
    exec (.init rd v) s = .next (respondWide rd (.ok (zeroExtend v)) s) := rfl

theorem sumChunks_low (v : Chunk) (n : Nat) : sumChunks (fun i => if i = 0 then v else 0) (n + 1) = v.toNat := by
  induction n with
  | zero => simp [sumChunks]
  | succ n ih =>
    rw [sumChunks, ih]
    simp

theorem zeroExtend_toNat (v : BitVec 64) : (zeroExtend v).toNat = v.toNat := by
  rw [zeroExtend, toNat_ofChunks, sumChunks_low]

theorem chunk_zeroExtend (v : BitVec 64) {i : Nat} (h : i < 128) : chunk (zeroExtend v) i = if i = 0 then v else 0 :=
  chunk_ofChunks _ h

/-- Settles O15: INIT writes `zeroExtend v`, whose chunks and value `chunk_zeroExtend` and `zeroExtend_toNat` give. -/
theorem initCreatesValue : Obligations.InitCreatesValue := by
  intro s rd v
  obtain ⟨t, ht, he⟩ := exec_endsWide (exec_init s rd v) rfl
  refine ⟨t, zeroExtend v, ht, he, ?_, fun i hi hlt => ?_, zeroExtend_toNat v⟩
  · rw [chunk_zeroExtend v (by decide), if_pos rfl]
  · rw [chunk_zeroExtend v hlt, if_neg (by omega)]

/-! ### ADD (R72) -/

/-- `carry` is the carry chain of R72 over the chunks of a and b. -/
structure CarryChain (a b : Wide) (carry : Nat → Nat) : Prop where
  zero : carry 0 = 0
  succ : ∀ i, i < 128 → carry (i + 1) = ((chunk a i).toNat + (chunk b i).toNat + carry i) >>> 64

/-- The chunk of the sum with the given carries: the low C bits. -/
def sumChunk (a b : Wide) (carry : Nat → Nat) (i : Nat) : Chunk :=
  BitVec.ofNat 64 ((chunk a i).toNat + (chunk b i).toNat + carry i)

/-- The loop of ADD stores the chunk sums of the chain, and its carry is the chain's. -/
theorem addLoop_eq_chain {a b : Wide} {carry : Nat → Nat} (h : CarryChain a b carry) {n : Nat} (hn : n ≤ 128) :
    (addLoop a b n).1 = sumChunks (sumChunk a b carry) n ∧ (addLoop a b n).2.toNat = carry n := by
  induction n with
  | zero => exact ⟨rfl, h.zero.symm⟩
  | succ n ih =>
    obtain ⟨ht, hc⟩ := ih (by omega)
    have hle := Bool.toNat_le (addLoop a b n).2
    have ha := (chunk a n).isLt
    have hb := (chunk b n).isLt
    have hcarry : carry (n + 1) = ((chunk a n).toNat + (chunk b n).toNat + carry n) / 2 ^ 64 := by
      rw [h.succ n hn, Nat.shiftRight_eq_div_pow]
    rw [hc] at hle
    simp only [addLoop, sumChunks, sumChunk, ht, hc, hcarry, BitVec.toNat_ofNat, true_and]
    by_cases hs : 2 ^ 64 ≤ (chunk a n).toNat + (chunk b n).toNat + carry n
    · simp only [hs, decide_true, Bool.toNat_true]
      omega
    · simp only [hs, decide_false, Bool.toNat_false]
      omega

theorem addWide_eq_loop (a b : Wide) : addWide a b =
    if (addLoop a b 128).2 then .error .overflow else .ok (ofValue (addLoop a b 128).1) := by
  rw [addWide]

/-- ADD on values, by the last carry of the chain. -/
theorem addWide_of_chain {a b : Wide} {carry : Nat → Nat} (h : CarryChain a b carry) :
    addWide a b = if carry 128 = 0 then .ok (ofChunks (sumChunk a b carry)) else .error .overflow := by
  obtain ⟨ht, hc⟩ := addLoop_eq_chain h (le_refl 128)
  rw [← hc, addWide_eq_loop, ht, ofValue_sumChunks]
  cases (addLoop a b 128).2 with
  | false => rfl
  | true => rfl

/-- Settles O16: the carries given are a `CarryChain`, and `addWide_of_chain` says what ADD answers with them. -/
theorem addPropagatesCarry : Obligations.AddPropagatesCarry := by
  intro s rd ra rb carry h0 hsucc
  have hadd := addWide_of_chain (a := readWide s ra) (b := readWide s rb) ⟨h0, hsucc⟩
  constructor
  · intro hlast
    rw [if_pos hlast] at hadd
    obtain ⟨t, ht, he⟩ := exec_endsWide (exec_add s rd ra rb) hadd
    refine ⟨t, _, ht, he, fun i hi => ?_⟩
    rw [chunk_ofChunks _ hi, sumChunk, BitVec.toNat_ofNat, chunkOf, chunkOf]
  · intro hlast
    rw [if_neg hlast] at hadd
    exact exec_endsFailed (exec_add s rd ra rb) hadd

/-! ### SUB (R73) -/

/-- `borrow` is the borrow chain of R73 over the chunks of a and b. -/
structure BorrowChain (a b : Wide) (borrow : Nat → Nat) : Prop where
  zero : borrow 0 = 0
  succ : ∀ i, i < 128 → borrow (i + 1) = if (chunk a i).toNat < (chunk b i).toNat + borrow i then 1 else 0

/-- The chunk of the difference with the given borrows, modulo 2^C. -/
def diffChunk (a b : Wide) (borrow : Nat → Nat) (i : Nat) : Chunk :=
  BitVec.ofInt 64 ((chunk a i).toNat - (chunk b i).toNat - borrow i)

theorem diffChunk_toNat (a b : Wide) (borrow : Nat → Nat) (i : Nat) :
    ((diffChunk a b borrow i).toNat : Int) = ((chunk a i).toNat - (chunk b i).toNat - borrow i : Int) % 2 ^ 64 := by
  rw [diffChunk, BitVec.toNat_ofInt]
  omega

/-- The loop of SUB stores the chunk differences of the chain, and its borrow is the chain's. -/
theorem subLoop_eq_chain {a b : Wide} {borrow : Nat → Nat} (h : BorrowChain a b borrow) {n : Nat} (hn : n ≤ 128) :
    (subLoop a b n).1 = sumChunks (diffChunk a b borrow) n ∧ (subLoop a b n).2.toNat = borrow n := by
  induction n with
  | zero => exact ⟨rfl, h.zero.symm⟩
  | succ n ih =>
    obtain ⟨ht, hc⟩ := ih (by omega)
    have hle := Bool.toNat_le (subLoop a b n).2
    have ha := (chunk a n).isLt
    have hb := (chunk b n).isLt
    have hd := diffChunk_toNat a b borrow n
    rw [hc] at hle
    simp only [subLoop, sumChunks, ht, hc, h.succ n hn]
    split
    · have hchunk : (diffChunk a b borrow n).toNat = (chunk a n).toNat + 2 ^ 64 - ((chunk b n).toNat + borrow n) := by omega
      rw [hchunk]
      exact ⟨rfl, rfl⟩
    · have hchunk : (diffChunk a b borrow n).toNat = (chunk a n).toNat - ((chunk b n).toNat + borrow n) := by omega
      rw [hchunk]
      exact ⟨rfl, rfl⟩

theorem subWide_of_chain {a b : Wide} {borrow : Nat → Nat} (h : BorrowChain a b borrow) :
    subWide a b = ofChunks (diffChunk a b borrow) := by
  rw [subWide, (subLoop_eq_chain h (le_refl 128)).1, ofValue_sumChunks]

/-- Settles O17: the borrows given are a `BorrowChain`, and `subWide_of_chain` names every chunk of the difference. -/
theorem subPropagatesBorrow : Obligations.SubPropagatesBorrow := by
  intro s rd ra rb borrow h0 hsucc
  obtain ⟨t, ht, he⟩ := exec_endsWide (exec_sub s rd ra rb) rfl
  refine ⟨t, _, ht, he, fun i hi => ?_⟩
  rw [subWide_of_chain ⟨h0, hsucc⟩, chunk_ofChunks _ hi, diffChunk_toNat, chunkOf, chunkOf]

/-! ### MUL (R74) -/

/-- The register of the low N chunks of the schoolbook product. -/
def schoolbookLow (a b : Wide) : Wide := ofChunks fun k => BitVec.ofNat 64 (schoolbook a b k)

theorem chunk_schoolbookLow (a b : Wide) {i : Nat} (h : i < 128) :
    (chunk (schoolbookLow a b) i).toNat = schoolbook a b i := by
  rw [schoolbookLow, chunk_ofChunks _ h, BitVec.toNat_ofNat, Nat.mod_eq_of_lt ((schoolbook_value a b).2 i)]

/-- With every high chunk 0, MUL gives the low chunks. -/
theorem mulWide_of_high_zero {a b : Wide} (h : ∀ k, 128 ≤ k → k < 256 → schoolbook a b k = 0) :
    mulWide a b = .ok (schoolbookLow a b) := by
  obtain ⟨hval, hlt⟩ := schoolbook_value a b
  have hprod := hval.symm.trans (productValue_low hlt h)
  rw [mulWide, hprod, if_pos (sumChunks_lt_W _), ofValue_sumChunks, schoolbookLow]

/-- With a high chunk that is not 0, MUL overflows. -/
theorem mulWide_of_high_ne_zero {a b : Wide} {k : Nat} (hk : 128 ≤ k) (hk' : k < 256) (h : schoolbook a b k ≠ 0) :
    mulWide a b = .error .overflow := by
  have hge := productValue_high hk hk' h
  rw [(schoolbook_value a b).1] at hge
  rw [mulWide, if_neg (Nat.not_lt.mpr hge)]

theorem exec_mul (s : State) (rd ra rb : WReg) :
    exec (.mul rd ra rb) s = .next (respondWide rd (mulWide (readWide s ra) (readWide s rb)) s) := rfl

/-- Settles O18: the schoolbook product is the product of the values (`schoolbook_value`), so its high chunks decide whether
MUL fits (`mulWide_of_high_zero`, `mulWide_of_high_ne_zero`). -/
theorem mulIsSchoolbook : Obligations.MulIsSchoolbook := by
  intro s rd ra rb
  constructor
  · intro h
    obtain ⟨t, ht, he⟩ := exec_endsWide (exec_mul s rd ra rb) (mulWide_of_high_zero h)
    exact ⟨t, _, ht, he, fun i hi => chunk_schoolbookLow _ _ hi⟩
  · rintro ⟨k, hk, hk', h⟩
    exact exec_endsFailed (exec_mul s rd ra rb) (mulWide_of_high_ne_zero hk hk' h)

/-! ### DIV and MOD (R75, R76) -/

section
variable {s : State} {rb : WReg} (rd ra : WReg)

/-- DIV by a divisor that is not 0 writes the floor quotient. -/
theorem exec_div_endsWide (hb : val s rb ≠ 0) : ∃ t q, exec (.div rd ra rb) s = .next t ∧ EndsWide s t rd q ∧
    q.toNat = val s ra / val s rb := by
  obtain ⟨t, ht, he⟩ := exec_endsWide (exec_div_value s rd ra rb) (if_neg hb)
  exact ⟨t, _, ht, he, toNat_ofValue ((Nat.div_le_self _ _).trans_lt (val_lt s ra))⟩

/-- MOD by a divisor that is not 0 writes the remainder. -/
theorem exec_mod_endsWide (hb : val s rb ≠ 0) : ∃ t r, exec (.mod rd ra rb) s = .next t ∧ EndsWide s t rd r ∧
    r.toNat = val s ra % val s rb := by
  obtain ⟨t, ht, he⟩ := exec_endsWide (exec_mod_value s rd ra rb) (if_neg hb)
  exact ⟨t, _, ht, he, toNat_ofValue ((Nat.mod_le _ _).trans_lt (val_lt s ra))⟩

end

/-- Settles O19: the quotient DIV writes is the floor quotient (`exec_div_endsWide`), bounded on both sides. -/
theorem divIsFloorQuotient : Obligations.DivIsFloorQuotient := by
  intro s rd ra rb
  constructor
  · intro hb
    obtain ⟨t, q, ht, he, hq⟩ := exec_div_endsWide rd ra hb
    refine ⟨t, q, ht, he, ?_, ?_⟩
    · rw [hq]
      exact Nat.div_mul_le_self _ _
    · rw [hq, Nat.add_one_mul]
      exact Nat.lt_div_mul_add (Nat.pos_of_ne_zero hb)
  · intro hb
    exact exec_endsFailed (exec_div_value s rd ra rb) (if_pos hb)

/-- Settles O20: MOD writes the remainder (`exec_mod_endsWide`), which with DIV's quotient (`exec_div_endsWide`) rebuilds the
dividend. -/
theorem modIsRemainder : Obligations.ModIsRemainder := by
  intro s rd ra rb
  constructor
  · intro hb
    obtain ⟨t, r, ht, he, hr⟩ := exec_mod_endsWide rd ra hb
    obtain ⟨t', q, ht', he', hq⟩ := exec_div_endsWide rd ra hb
    refine ⟨t, r, ht, he, ?_, ?_, t', q, ht', he', ?_⟩
    · rw [hr, Nat.mod_eq_sub_mul_div]
    · rw [hr]
      exact Nat.mod_lt _ (Nat.pos_of_ne_zero hb)
    · rw [hr, hq, Nat.div_add_mod']
  · intro hb
    exact exec_endsFailed (exec_mod_value s rd ra rb) (if_pos hb)

/-! ### CMP (R77) -/

theorem exec_cmp (s : State) (ra rb : WReg) : exec (.cmp ra rb) s =
    .next (respondScalar (.ok (compareCode (compareChunks (readWide s ra) (readWide s rb) 128))) s) := rfl

/-- Equal chunks at the top do not decide: the loop goes on below them. -/
theorem compareChunks_skip {a b : Wide} {m n : Nat} (hmn : m ≤ n)
    (h : ∀ j, m ≤ j → j < n → (chunk a j).toNat = (chunk b j).toNat) : compareChunks a b n = compareChunks a b m := by
  induction n, hmn using Nat.le_induction with
  | base => rfl
  | succ n hmn ih =>
    have heq := h n hmn (Nat.lt_succ_self n)
    rw [compareChunks, heq, if_neg (lt_irrefl _), if_neg (lt_irrefl _)]
    exact ih fun j hj hjn => h j hj (by omega)

theorem compareChunks_gt {a b : Wide} {n : Nat} (h : (chunk b n).toNat < (chunk a n).toNat) :
    compareChunks a b (n + 1) = .gt := by
  rw [compareChunks, if_pos h]

theorem compareChunks_lt {a b : Wide} {n : Nat} (h : (chunk a n).toNat < (chunk b n).toNat) :
    compareChunks a b (n + 1) = .lt := by
  rw [compareChunks, if_neg h.not_gt, if_pos h]

/-- Settles O22: the loop passes over the equal chunks at the top (`compareChunks_skip`), all 128 or those above chunk i, and
chunk i decides (`compareChunks_gt`, `compareChunks_lt`). -/
theorem cmpTopDifferingChunkDecides : Obligations.CmpTopDifferingChunkDecides := by
  intro s ra rb
  refine ⟨_, _, exec_cmp s ra rb, respondScalar_ok _ _, fun heq => ?_, fun i hi habove => ?_⟩
  · rw [compareChunks_skip (Nat.zero_le 128) fun j _ hj => heq j hj, compareChunks, compareCode]
  · rw [compareChunks_skip (show i + 1 ≤ 128 from hi) habove]
    constructor
    · intro hgt
      rw [compareChunks_gt hgt, compareCode]
    · intro hlt
      rw [compareChunks_lt hlt, compareCode]

/-! ### BITLEN (R78) -/

theorem exec_bitlen (s : State) (ra : WReg) :
    exec (.bitlen ra) s = .next (respondScalar (.ok (BitVec.ofNat 64 (bitLength (val s ra)))) s) := rfl

/-- The bit length of a register fits RESULT. -/
theorem toNat_bitLength (x : Wide) : (BitVec.ofNat 64 (bitLength x.toNat)).toNat = bitLength x.toNat := by
  rw [BitVec.toNat_ofNat, Nat.mod_eq_of_lt ((bitLength_wide_le x).trans_lt (by decide))]

theorem chunkBitLength_all (x : Wide) : chunkBitLength x 128 = bitLength x.toNat := by
  rw [chunkBitLength_value, mod_W]

/-- Settles O23: RESULT holds the bit length of the value unabridged (`toNat_bitLength`), which is the least bound
(`bitLength_le_iff`) and the chunk-wise one (`chunkBitLength_all`). -/
theorem bitlenIsLeastBound : Obligations.BitlenIsLeastBound := by
  intro s ra
  have hv : (BitVec.ofNat 64 (bitLength (val s ra))).toNat = bitLength (val s ra) := toNat_bitLength (readWide s ra)
  refine ⟨_, _, exec_bitlen s ra, respondScalar_ok _ _, fun L => ?_, fun h0 => ?_, ?_, ?_⟩
  · rw [hv, bitLength_le_iff]
  · simp [bitLength, h0]
  · rw [hv]
    exact bitLength_wide_le _
  · rw [hv, chunkBitLength_all, val]

/-! ### ISZERO (R79) -/

theorem exec_iszero (s : State) (ra : WReg) :
    exec (.iszero ra) s = .next (respondScalar (.ok (boolCode (zeroChunks (readWide s ra) 128))) s) := rfl

theorem chunk_eq_zero_iff (s : State) (r : WReg) (i : Nat) : chunk (readWide s r) i = 0 ↔ chunkOf s r i = 0 :=
  BitVec.toNat_inj.symm

/-- Settles O24: the loop answers true exactly when every chunk is 0 (`zeroChunks_iff`). -/
theorem iszeroLooksAtEveryChunk : Obligations.IszeroLooksAtEveryChunk := by
  intro s ra
  have hiff : zeroChunks (readWide s ra) 128 = true ↔ ∀ i, i < 128 → chunkOf s ra i = 0 := by
    simp only [zeroChunks_iff, chunk_eq_zero_iff]
  refine ⟨_, _, exec_iszero s ra, respondScalar_ok _ _, fun hall => ?_, fun ⟨i, hi, hne⟩ => ?_⟩
  · rw [hiff.mpr hall, boolCode, if_pos rfl]
  · have hfalse : ¬ zeroChunks (readWide s ra) 128 = true := fun h => hne (hiff.mp h i hi)
    rw [boolCode, if_neg hfalse]

end Sys2Proof.Machine
end

section
/-! The structural index codec (41_index_codec.md R100 to R116): the granularity table, Check, and what each of the five
commands answers, unit by unit and chunk by chunk. -/

namespace Sys2Proof.Machine

/-! ### Granularity (R100) -/

theorem unitBits_eq_pow {m : Mode} (h : 1 ≤ m.number) : m.unitBits = 2 ^ (m.number + 1) := by
  cases m with
  | bit => exact absurd h (by decide)
  | _ => rfl

theorem unitCount_eq_pow {m : Mode} (h : 1 ≤ m.number) : m.unitCount = 2 ^ (12 - m.number) := by
  cases m with
  | bit => exact absurd h (by decide)
  | _ => rfl

theorem unitCount_eq_div (m : Mode) : m.unitCount = Config.W / m.unitBits :=
  Nat.eq_div_of_mul_eq_left (unitBits_pos m).ne' (unitCount_mul_unitBits m)

/-- Settles O31: the mode numbers are `ofField_eq_some` and `ofField_eq_none`, the closed forms `unitBits_eq_pow`,
`unitCount_eq_pow` and `unitCount_eq_div`; the two derived columns are so defined. -/
theorem granularityTable : Obligations.GranularityTable :=
  ⟨ofField_eq_some, ofField_eq_none, rfl, rfl, fun _ h => ⟨unitBits_eq_pow h, unitCount_eq_pow h⟩, unitCount_eq_div,
    fun _ _ => rfl, fun _ _ => rfl⟩

/-- Modes 6 to 11 are those whose unit is a sub-integer (R101). -/
theorem isScalar_eq_false_iff (m : Mode) : m.isScalar = false ↔ 6 ≤ m.number := by
  rw [← Bool.not_eq_true, isScalar_iff, Nat.not_le]
  exact Iff.rfl

/-! ### Check (R102, R103) -/

/-- `validDesc` accepts exactly the descriptors that name a unit. -/
theorem validDesc_iff (d : Desc) : validDesc d = true ↔ ∃ m k, NamesUnit d m k := by
  unfold validDesc NamesUnit
  cases Mode.ofField (descMode d) with
  | none => simp
  | some m => simp [and_assoc]

/-- Settles O34: the three answers of Check are `checkDesc_version`, `checkDesc_range` and `checkDesc_ok`; `validDesc_iff`
says which descriptors are valid. -/
theorem checkDecidesValidity : Obligations.CheckDecidesValidity :=
  ⟨fun _ => checkDesc_version, fun _ => checkDesc_range, fun _ _ _ => checkDesc_ok, validDesc_iff⟩

theorem NamesUnit.index_lt {d : Desc} {m : Mode} {k : Nat} (h : NamesUnit d m k) : k < m.unitCount := by
  obtain ⟨-, -, -, -, hk⟩ := h
  exact hk

/-! ### Ends of a command whose result is a scalar -/

section
variable {i : Instr} {s : State} {r : Except ErrorKind (BitVec 64)}

theorem exec_endsScalar (hi : exec i s = .next (respondScalar r s)) {v : BitVec 64} (hr : r = .ok v) :
    ∃ t, exec i s = .next t ∧ EndsScalar s t v := by
  subst hr
  exact ⟨_, hi, respondScalar_ok v s⟩

theorem exec_scalar_endsFailed (hi : exec i s = .next (respondScalar r s)) {e : ErrorKind} (hr : r = .error e) :
    ∃ t, exec i s = .next t ∧ EndsFailed s t e.code := by
  subst hr
  exact ⟨_, hi, respondScalar_error e s⟩

end

/-! ### ENCODE (R60, R105) -/

theorem exec_encode (s : State) (p : EncodeParams) :
    exec (.encode p) s = .next (respondScalar ((encodeDesc p).map fun d => d.setWidth 64) s) := rfl

section
variable {p : EncodeParams} {m : Mode}

theorem encodeDesc_ok (hm : Mode.ofField p.mode = some m) (hk : p.offset.toNat < m.unitCount) :
    encodeDesc p = .ok (packDesc p) := by
  simp [encodeDesc, hm, hk]

theorem encodeDesc_of_reserved_mode (h : 11 < p.mode.toNat) : encodeDesc p = .error .invalidArgument := by
  rw [encodeDesc, (ofField_eq_none p.mode).mpr h]

theorem encodeDesc_of_unitCount_le (hm : Mode.ofField p.mode = some m) (hk : m.unitCount ≤ p.offset.toNat) :
    encodeDesc p = .error .invalidArgument := by
  simp [encodeDesc, hm, hk]

/-- An offset ENCODE accepts fits the descriptor's offset field. -/
theorem offset_lt_of_lt_unitCount (hk : p.offset.toNat < m.unitCount) : p.offset.toNat < 2 ^ 16 :=
  (hk.trans_le (unitCount_le m)).trans (by decide)

theorem descOffset_packDesc_toNat (h : p.offset.toNat < 2 ^ 16) : (descOffset (packDesc p)).toNat = p.offset.toNat := by
  rw [descOffset_packDesc, BitVec.toNat_setWidth, Nat.mod_eq_of_lt h]

end

theorem decode_of_encode_opcode {pkt : Packet} (hrsv : packetRsv pkt = 0) (hop : packetOpcode pkt = 0x20) :
    decode pkt = .ok (.encode (encodeParams (packetData pkt))) := by
  rw [decode_of_opcode (op := .encode) hop, if_pos hrsv, operands]

/-- The fields of the parameter word, as quotients by their places (R60). -/
theorem encodeParams_toNat (data : BitVec 64) : (encodeParams data).offset.toNat = data.toNat % 2 ^ 32 ∧
    (encodeParams data).mode.toNat = data.toNat / 2 ^ 32 % 16 ∧ (encodeParams data).le.toNat = data.toNat / 2 ^ 36 % 2 ∧
    (encodeParams data).csel.toNat = data.toNat / 2 ^ 37 % 2 ∧ (encodeParams data).sign.toNat = data.toNat / 2 ^ 38 % 2 := by
  simp [encodeParams, BitVec.extractLsb'_toNat, Nat.shiftRight_eq_div_pow]

/-- The low bits of a word are those of its residue. -/
theorem getLsbD_congr_of_mod_eq {w n : Nat} {x y : BitVec w} (h : x.toNat % 2 ^ n = y.toNat % 2 ^ n) {b : Nat}
    (hb : b < n) : x.getLsbD b = y.getLsbD b := by
  have hbit := congrArg (Nat.testBit · b) h
  simpa only [Nat.testBit_mod_two_pow, hb, decide_true, Bool.true_and, BitVec.testBit_toNat] using hbit

/-- Settles O36: the fields of DATA are `encodeParams_toNat` and ENCODE reads no bit above 38
(`encodeParams_congr`); what it builds is `packDesc`, whose fields the `_packDesc` lemmas give, and its two failures are
`encodeDesc_of_reserved_mode` and `encodeDesc_of_unitCount_le`. -/
theorem encodeBuildsDescriptor : Obligations.EncodeBuildsDescriptor := by
  refine ⟨fun _ => decode_of_encode_opcode, encodeParams_toNat,
    fun data data' h => encodeParams_congr fun b hb => getLsbD_congr_of_mod_eq h hb,
    fun s p => ⟨fun m hm hk => ?_, fun h => ?_, fun m hm hk => ?_⟩⟩
  · have ho := offset_lt_of_lt_unitCount hk
    obtain ⟨t, ht, he⟩ := exec_endsScalar (exec_encode s p) (congrArg (Except.map _) (encodeDesc_ok hm hk))
    exact ⟨t, packDesc p, ht, he, descVersion_packDesc ho, descReserved_packDesc ho, descMode_packDesc ho,
      descSign_packDesc ho, descCsel_packDesc ho, descEndian_packDesc ho, descOffset_packDesc_toNat ho⟩
  · exact exec_scalar_endsFailed (exec_encode s p) (congrArg (Except.map _) (encodeDesc_of_reserved_mode h))
  · exact exec_scalar_endsFailed (exec_encode s p) (congrArg (Except.map _) (encodeDesc_of_unitCount_le hm hk))

/-! ### DECODE (R61, R106) -/

theorem exec_decode (s : State) (d : Desc) : exec (.decode d) s = .next (respondScalar (.ok (unpackDesc d)) s) := rfl

section
variable (d : Desc)

/-- Bits 18:0 of the result word are the descriptor's own (R106). -/
theorem getLsbD_unpackDesc_low {b : Nat} (hb : b < 19) : (unpackDesc d).getLsbD b = d.getLsbD b := by
  interval_cases b <;> simp [unpackDesc, descSign, descCsel, descEndian, descOffset]

theorem extractLsb'_unpackDesc_low {start len : Nat} (h : start + len ≤ 19) :
    (unpackDesc d).extractLsb' start len = d.extractLsb' start len := by
  apply BitVec.eq_of_getLsbD_eq
  intro i hi
  simp only [BitVec.getLsbD_extractLsb', getLsbD_unpackDesc_low d (show start + i < 19 by omega)]

theorem getLsbD_unpackDesc_19 : (unpackDesc d).getLsbD 19 = false := by
  simp [unpackDesc]

theorem extractLsb'_unpackDesc_mode : (unpackDesc d).extractLsb' 20 4 = descMode d := by
  apply BitVec.eq_of_getLsbD_eq
  intro i hi
  interval_cases i <;> simp [unpackDesc]

theorem extractLsb'_unpackDesc_version : (unpackDesc d).extractLsb' 24 1 = descVersion d := by
  apply BitVec.eq_of_getLsbD_eq
  intro i hi
  interval_cases i
  simp [unpackDesc]

/-- The result word ends at bit 24 (R61). -/
theorem getLsbD_unpackDesc_high {b : Nat} (hb : 25 ≤ b) : (unpackDesc d).getLsbD b = false := by
  simp only [unpackDesc, BitVec.getLsbD_or, BitVec.getLsbD_shiftLeft, BitVec.getLsbD_setWidth]
  rw [BitVec.getLsbD_of_ge (descVersion d) _ (by omega), BitVec.getLsbD_of_ge (descMode d) _ (by omega),
    BitVec.getLsbD_of_ge (descSign d) _ (by omega), BitVec.getLsbD_of_ge (descCsel d) _ (by omega),
    BitVec.getLsbD_of_ge (descEndian d) _ (by omega), BitVec.getLsbD_of_ge (descOffset d) _ (by omega)]
  simp

end

/-- Settles O37: the flags and the offset stand in bits 18:0, which are the descriptor's own (`extractLsb'_unpackDesc_low`);
version and mode have the places above, and every other bit is 0. -/
theorem decodeReturnsFields : Obligations.DecodeReturnsFields := by
  intro s d
  obtain ⟨t, ht, he⟩ := exec_endsScalar (exec_decode s d) rfl
  exact ⟨t, _, ht, he, extractLsb'_unpackDesc_version d, extractLsb'_unpackDesc_mode d, getLsbD_unpackDesc_19 d,
    extractLsb'_unpackDesc_low d (by decide), extractLsb'_unpackDesc_low d (by decide),
    extractLsb'_unpackDesc_low d (by decide), extractLsb'_unpackDesc_low d (by decide),
    fun _ => getLsbD_unpackDesc_high d, fun _ => getLsbD_unpackDesc_low d⟩

/-! ### VALIDATE (R107) -/

theorem exec_validate (s : State) (d : Desc) :
    exec (.validate d) s = .next (respondScalar ((checkDesc d).map fun _ => 0) s) := rfl

theorem exec_validate_endsFailed {d : Desc} {e : ErrorKind} (h : checkDesc d = .error e) (s : State) :
    ∃ t, exec (.validate d) s = .next t ∧ EndsFailed s t e.code :=
  exec_scalar_endsFailed (exec_validate s d) (congrArg (Except.map _) h)

/-- Settles O39: VALIDATE ends with what Check answers, and `checkDesc_ok`, `checkDesc_version` and `checkDesc_range` say what
that is. -/
theorem validateAnswersCheck : Obligations.ValidateAnswersCheck := by
  intro s d
  refine ⟨fun m k hu => ?_, fun hv => ?_, fun hr => ?_⟩
  · exact exec_endsScalar (exec_validate s d) (congrArg (Except.map _) (checkDesc_ok.mpr hu))
  · exact exec_validate_endsFailed (checkDesc_version.mpr hv) s
  · exact exec_validate_endsFailed (checkDesc_range.mpr hr) s

/-! ### READ (R108 to R110) -/

section
variable {d : Desc} {m : Mode} {k : Nat} (s : State) (rd ra : WReg)

theorem exec_read_endsFailed {e : ErrorKind} (h : checkDesc d = .error e) :
    ∃ t, exec (.read rd ra d) s = .next t ∧ EndsFailed s t e.code :=
  ⟨_, exec_read_error s rd ra h, raise_ends e s⟩

theorem exec_read_endsScalar (hu : NamesUnit d m k) (hm : m.isScalar = true) :
    ∃ t, exec (.read rd ra d) s = .next t ∧ EndsScalar s t (readScalarUnit (readWide s ra) m k) :=
  exec_endsScalar (execRead_scalar hu hm rd ra s) rfl

theorem exec_read_endsWide (hu : NamesUnit d m k) (hm : m.isScalar = false) :
    ∃ t, exec (.read rd ra d) s = .next t ∧ EndsWide s t rd (readSubUnit (readWide s ra) m k) :=
  exec_endsWide (execRead_sub hu hm rd ra s) rfl

end

/-- Settles O40: both forms of UnitRead give the unit's value (`readScalarUnit_toNat`, `readSubUnit_toNat`), and an invalid
descriptor ends with the code of Check. -/
theorem readGivesUnitValue : Obligations.ReadGivesUnitValue := by
  intro s rd ra d
  refine ⟨fun m k hu hm => ?_, fun m k hu hm => ?_, fun hv => ?_, fun hr => ?_⟩
  · have hs := (isScalar_iff m).mpr hm
    obtain ⟨t, ht, he⟩ := exec_read_endsScalar s rd ra hu hs
    exact ⟨t, _, ht, he, readScalarUnit_toNat hs _ k⟩
  · have hs := (isScalar_eq_false_iff m).mpr hm
    obtain ⟨t, ht, he⟩ := exec_read_endsWide s rd ra hu hs
    exact ⟨t, _, ht, he, readSubUnit_toNat hs _ k⟩
  · exact exec_read_endsFailed s rd ra (checkDesc_version.mpr hv)
  · exact exec_read_endsFailed s rd ra (checkDesc_range.mpr hr)

/-- UnitRead of modes 0 to 5 out of the chunk the unit lies in (R109). -/
theorem readScalarUnit_toNat_chunk {m : Mode} (hm : m.isScalar = true) (x : Wide) (k : Nat) :
    (readScalarUnit x m k).toNat = ((chunk x (unitChunk m k)).toNat >>> unitPos m k) % 2 ^ m.unitBits := by
  rw [readScalarUnit, and_lowMask_toNat (unitBits_le_of_scalar hm), BitVec.toNat_ushiftRight]

/-! In mode 5 the unit is the chunk. -/

@[simp] theorem unitChunk_qword (k : Nat) : unitChunk .qword k = k := Nat.div_one k

@[simp] theorem unitPos_qword (k : Nat) : unitPos .qword k = 0 := by
  rw [unitPos, show Mode.qword.upc = 1 from rfl, Nat.mod_one, Nat.zero_mul]

theorem lowMask_qword : lowMask Mode.qword.unitBits = BitVec.allOnes 64 := rfl

theorem readScalarUnit_qword (x : Wide) (k : Nat) : readScalarUnit x .qword k = chunk x k := by
  rw [readScalarUnit, lowMask_qword, unitChunk_qword, unitPos_qword, BitVec.ushiftRight_zero, BitVec.and_allOnes]

/-- Settles O41: the scalar READ answers is UnitRead's, taken out of its chunk (`readScalarUnit_toNat_chunk`), which in mode 5
is the chunk itself (`readScalarUnit_qword`). -/
theorem readScalarFromChunk : Obligations.ReadScalarFromChunk := by
  intro s rd ra d m k hu hm
  have hs := (isScalar_iff m).mpr hm
  obtain ⟨t, ht, he⟩ := exec_read_endsScalar s rd ra hu hs
  refine ⟨t, _, ht, he, readScalarUnit_toNat_chunk hs _ k, ?_⟩
  rintro rfl
  exact readScalarUnit_qword _ k

/-- The chunks of a sub-integer unit are chunks of the register (R36). -/
theorem sub_unit_end {m : Mode} (hm : m.isScalar = false) {k : Nat} (hk : k < m.unitCount) :
    m.cpu * k + m.cpu ≤ 128 :=
  calc m.cpu * k + m.cpu = m.cpu * (k + 1) := (Nat.mul_succ _ _).symm
    _ ≤ m.cpu * m.unitCount := Nat.mul_le_mul_left _ hk
    _ = 128 := unitCount_mul_cpu hm

/-- Settles O42: the register READ writes is UnitRead's, whose chunks `chunk_readSubUnit` gives. -/
theorem readSubIntegerCopiesChunks : Obligations.ReadSubIntegerCopiesChunks := by
  intro s rd ra d m k hu hm
  have hs := (isScalar_eq_false_iff m).mpr hm
  have hend := sub_unit_end hs hu.index_lt
  obtain ⟨t, ht, he⟩ := exec_read_endsWide s rd ra hu hs
  refine ⟨t, _, ht, he, fun j hj => ?_, fun j hj hlt => ?_⟩
  · rw [chunk_readSubUnit _ _ _ (by omega), if_pos hj]
  · rw [chunk_readSubUnit _ _ _ hlt, if_neg (by omega)]

/-! ### WRITE (R111 to R114) -/

/-- `y` is `x` with the bits of unit k of mode m replaced by the low bits of `v` and no other bit changed (20_memory.md
R35). -/
def ReplacesUnit (m : Mode) (k v : Nat) (x y : Wide) : Prop :=
  ∀ b, y.getLsbD b =
    if m.unitBits * k ≤ b ∧ b < m.unitBits * k + m.unitBits then v.testBit (b - m.unitBits * k) else x.getLsbD b

theorem writeScalarUnit_replacesUnit {m : Mode} (hm : m.isScalar = true) {k : Nat} (hk : k < m.unitCount) (x : Wide)
    (v : BitVec 64) : ReplacesUnit m k v.toNat x (writeScalarUnit x m k v) :=
  getLsbD_writeScalarUnit hm x hk v

theorem writeSubUnit_replacesUnit {m : Mode} (hm : m.isScalar = false) {k : Nat} (hk : k < m.unitCount) (x src : Wide) :
    ReplacesUnit m k src.toNat x (writeSubUnit x src m k) :=
  getLsbD_writeSubUnit hm x src hk

section
variable {m : Mode} {k v : Nat} {x y : Wide} (h : ReplacesUnit m k v x y)
include h

/-- The unit holds the value masked to it. -/
theorem ReplacesUnit.unitValue_eq : unitValue y m k = v % 2 ^ m.unitBits := by
  apply Nat.eq_of_testBit_eq
  intro i
  rw [testBit_unitValue, Nat.testBit_mod_two_pow, h]
  by_cases hi : i < m.unitBits
  · rw [if_pos ⟨by omega, by omega⟩, Nat.add_sub_cancel_left]
  · simp [hi]

theorem ReplacesUnit.getLsbD_outside {b : Nat} (hb : ¬(m.unitBits * k ≤ b ∧ b < m.unitBits * k + m.unitBits)) :
    y.getLsbD b = x.getLsbD b := by
  rw [h, if_neg hb]

end

section
variable {d : Desc} {m : Mode} {k : Nat} (s : State) (rd ra : WReg) (v : BitVec 64)

theorem exec_write_endsFailed {e : ErrorKind} (h : checkDesc d = .error e) :
    ∃ t, exec (.write rd ra d v) s = .next t ∧ EndsFailed s t e.code :=
  ⟨_, exec_write_error s rd ra v h, raise_ends e s⟩

theorem exec_write_endsWide_scalar (hu : NamesUnit d m k) (hm : m.isScalar = true) :
    ∃ t, exec (.write rd ra d v) s = .next t ∧ EndsWide s t rd (writeScalarUnit (readWide s rd) m k v) :=
  exec_endsWide (execWrite_scalar hu hm rd ra v s) rfl

theorem exec_write_endsWide_sub (hu : NamesUnit d m k) (hm : m.isScalar = false) :
    ∃ t, exec (.write rd ra d v) s = .next t ∧ EndsWide s t rd (writeSubUnit (readWide s rd) (readWide s ra) m k) :=
  exec_endsWide (execWrite_sub hu hm rd ra v s) rfl

/-- WRITE of a valid descriptor replaces the unit it names, by DATA in modes 0 to 5 and by V[ra] in modes 6 to 11 (R111). -/
theorem exec_write_replacesUnit (hu : NamesUnit d m k) :
    ∃ t x, exec (.write rd ra d v) s = .next t ∧ EndsWide s t rd x ∧
      ReplacesUnit m k (if m.number ≤ 5 then v.toNat else val s ra) (readWide s rd) x := by
  have hk := hu.index_lt
  by_cases hm : m.number ≤ 5
  · have hs := (isScalar_iff m).mpr hm
    obtain ⟨t, ht, he⟩ := exec_write_endsWide_scalar s rd ra v hu hs
    rw [if_pos hm]
    exact ⟨t, _, ht, he, writeScalarUnit_replacesUnit hs hk _ v⟩
  · have hs := (isScalar_eq_false_iff m).mpr (Nat.lt_of_not_le hm)
    obtain ⟨t, ht, he⟩ := exec_write_endsWide_sub s rd ra v hu hs
    rw [if_neg hm]
    exact ⟨t, _, ht, he, writeSubUnit_replacesUnit hs hk _ _⟩

end

/-- Settles O43: WRITE of a valid descriptor replaces its unit (`exec_write_replacesUnit`), which fixes the unit's value and
keeps every other bit; an invalid descriptor ends with the code of Check. -/
theorem writeReplacesExactlyTheUnit : Obligations.WriteReplacesExactlyTheUnit := by
  intro s rd ra d v
  refine ⟨fun m k hu => ?_, fun hv => ?_, fun hr => ?_⟩
  · obtain ⟨t, x, ht, he, hx⟩ := exec_write_replacesUnit s rd ra v hu
    exact ⟨t, x, ht, he, hx.unitValue_eq, fun _ => hx.getLsbD_outside⟩
  · exact exec_write_endsFailed s rd ra v (checkDesc_version.mpr hv)
  · exact exec_write_endsFailed s rd ra v (checkDesc_range.mpr hr)

/-- Masking a word to a unit is taking it modulo the unit's size. -/
theorem and_lowMask_eq_ofNat {u : Nat} (hu : u ≤ 64) (v : BitVec 64) : v &&& lowMask u = BitVec.ofNat 64 (v.toNat % 2 ^ u) := by
  rw [← and_lowMask_toNat hu, BitVec.ofNat_toNat, BitVec.setWidth_eq]

theorem chunk_writeScalarUnit_same {m : Mode} (hm : m.isScalar = true) {k : Nat} (hk : k < m.unitCount) (x : Wide)
    (v : BitVec 64) :
    chunk (writeScalarUnit x m k v) (unitChunk m k) =
      (chunk x (unitChunk m k) &&& ~~~(lowMask m.unitBits <<< unitPos m k))
        ||| (BitVec.ofNat 64 (v.toNat % 2 ^ m.unitBits) <<< unitPos m k) := by
  rw [writeScalarUnit, chunk_setChunk _ _ (unitChunk_lt hm hk), if_pos rfl, and_lowMask_eq_ofNat (unitBits_le_of_scalar hm)]

theorem chunk_writeScalarUnit_other (x : Wide) {m : Mode} {k i : Nat} (v : BitVec 64) (hi : i < 128)
    (hne : i ≠ unitChunk m k) : chunk (writeScalarUnit x m k v) i = chunk x i := by
  rw [writeScalarUnit, chunk_setChunk _ _ hi, if_neg hne]

theorem eq_qword_of_number {m : Mode} (h : m.number = 5) : m = .qword := by
  cases m with
  | qword => rfl
  | _ => exact absurd h (by decide)

/-- In mode 5 the mask is the whole chunk, so the value replaces it (R113). -/
theorem chunk_writeScalarUnit_qword (x : Wide) {k : Nat} (hk : k < Mode.qword.unitCount) (v : BitVec 64) :
    chunk (writeScalarUnit x .qword k v) k = v := by
  rw [writeScalarUnit, lowMask_qword, unitChunk_qword, unitPos_qword, chunk_setChunk _ _ hk, if_pos rfl,
    BitVec.shiftLeft_zero, BitVec.shiftLeft_zero, BitVec.not_allOnes, BitVec.and_zero, BitVec.zero_or, BitVec.and_allOnes]

/-- Settles O44: WRITE of modes 0 to 5 is UnitWrite, which stores under the mask in the unit's chunk
(`chunk_writeScalarUnit_same`, for mode 5 `chunk_writeScalarUnit_qword`) and keeps the other chunks. -/
theorem writeScalarIsMaskedStore : Obligations.WriteScalarIsMaskedStore := by
  intro s rd ra d v m k hu hm
  have hs := (isScalar_iff m).mpr hm
  have hk := hu.index_lt
  obtain ⟨t, ht, he⟩ := exec_write_endsWide_scalar s rd ra v hu hs
  refine ⟨t, _, ht, he, fun _ => chunk_writeScalarUnit_same hs hk _ v, fun h5 => ?_,
    fun i hi hne => chunk_writeScalarUnit_other _ v hi hne⟩
  obtain rfl := eq_qword_of_number h5
  exact chunk_writeScalarUnit_qword _ hk v

/-- Settles O45: WRITE of modes 6 to 11 is UnitWrite, whose chunks `chunk_writeSubUnit` gives. -/
theorem writeSubIntegerCopiesChunks : Obligations.WriteSubIntegerCopiesChunks := by
  intro s rd ra d v m k hu hm
  have hs := (isScalar_eq_false_iff m).mpr hm
  have hend := sub_unit_end hs hu.index_lt
  obtain ⟨t, ht, he⟩ := exec_write_endsWide_sub s rd ra v hu hs
  refine ⟨t, _, ht, he, fun j hj => ?_, fun i hi hout => ?_⟩
  · rw [chunk_writeSubUnit _ _ _ _ (by omega), if_pos ⟨by omega, by omega⟩, Nat.add_sub_cancel_left]
  · rw [chunk_writeSubUnit _ _ _ _ hi, if_neg hout]

/-! ### The flag bits (R116) -/

theorem exec_validate_congr {d d' : Desc} (h : checkDesc d = checkDesc d') (s : State) :
    exec (.validate d) s = exec (.validate d') s := by
  rw [exec_validate, exec_validate, h]

theorem exec_read_congr {d d' : Desc} (h : checkDesc d = checkDesc d') (s : State) (rd ra : WReg) :
    exec (.read rd ra d) s = exec (.read rd ra d') s := by
  simp only [exec, execRead, h]

theorem exec_write_congr {d d' : Desc} (h : checkDesc d = checkDesc d') (s : State) (rd ra : WReg) (v : BitVec 64) :
    exec (.write rd ra d v) s = exec (.write rd ra d' v) s := by
  simp only [exec, execWrite, h]

/-- Settles O49: the three commands read the descriptor through Check alone, and Check does not read the flag bits
(`checkDesc_flags`). -/
theorem flagBitsAreIgnored : Obligations.FlagBitsAreIgnored := by
  intro s rd ra d d' v hflags
  have h := checkDesc_flags hflags
  exact ⟨exec_validate_congr h s, exec_read_congr h s rd ra, exec_write_congr h s rd ra v⟩

end Sys2Proof.Machine
end

section
/-! Failing commands are precise (60_exceptions.md R133): a non-zero STATUS means the third way of ending, `EndsFailed`. -/

namespace Sys2Proof.Machine

/-- The two ways of ending Ok leave STATUS 0, so a non-zero STATUS is that of a command that failed. -/
theorem Ends.endsFailed {s t : State} {dest : Option WReg} {codes : List (BitVec 8)} (h : Ends s t dest codes)
    (hne : t.status ≠ 0) : t.status ∈ codes ∧ EndsFailed s t t.status := by
  cases h with
  | scalar v h => exact absurd h.status hne
  | wide rd x hd h => exact absurd h.status hne
  | failed e hc h =>
    rw [h.status]
    exact ⟨hc, h⟩

/-- InvalidCommand is no command's own: the codes R131 lists are Ok's and the first five error kinds'. -/
theorem possibleStatus_subset_zero_to_five (i : Instr) : possibleStatus i ⊆ [0, 1, 2, 3, 4, 5] := by
  cases i <;> simp [possibleStatus]

theorem toNat_le_five_of_mem_possibleStatus {i : Instr} {c : BitVec 8} (h : c ∈ possibleStatus i) : c.toNat ≤ 5 := by
  have hle : ∀ c ∈ ([0, 1, 2, 3, 4, 5] : List (BitVec 8)), c.toNat ≤ 5 := by decide
  exact hle c (possibleStatus_subset_zero_to_five i h)

theorem exec_failure_precise {i : Instr} {s t : State} (ht : exec i s = .next t) (hne : t.status ≠ 0) :
    EndsFailed s t t.status ∧ 1 ≤ t.status.toNat ∧ t.status.toNat ≤ 5 := by
  obtain ⟨u, hu, hends⟩ := exec_ends i s
  obtain rfl : u = t := Host.Outcome.next.inj (hu.symm.trans ht)
  obtain ⟨hmem, hfail⟩ := hends.endsFailed hne
  have hpos : 1 ≤ u.status.toNat := Nat.pos_of_ne_zero fun h0 => hne (BitVec.eq_of_toNat_eq h0)
  exact ⟨hfail, hpos, toNat_le_five_of_mem_possibleStatus hmem⟩

/-- The step that runs the packet taken, whatever the packet, ends it (R154): it answers a state that ends in one of the
three ways from the state in which the engine is ready again. -/
theorem step_of_taken_ends {s : State} {p : Packet} (hr : (portIn s).rst = false) (hp : s.taken = some p) :
    ∃ t dest codes, step s = .next t ∧ Ends (endCommand s) t dest codes := by
  rw [step_of_taken hr hp]
  exact runPacket_ends p (endCommand s)

theorem step_failure_precise {s t : State} {p : Packet} (hr : (portIn s).rst = false) (hp : s.taken = some p)
    (ht : step s = .next t) (hne : t.status ≠ 0) :
    KeepsWide s t ∧ t.result = 0 ∧ t.status.toNat ≤ 6 ∧ cmdReady t = true ∧ portRspValid t = true := by
  obtain ⟨u, dest, codes, hu, hends⟩ := step_of_taken_ends hr hp
  obtain rfl : u = t := Host.Outcome.next.inj (hu.symm.trans ht)
  obtain ⟨hle, -, htaken, hrsp, -⟩ := hends.response
  obtain ⟨-, hfail⟩ := hends.endsFailed hne
  have hwide : KeepsWide s u := fun r => (hfail.wide r).trans (readWide_endCommand s r)
  have hready : cmdReady u = true := by rw [cmdReady_eq, htaken, endCommand_taken, Option.isNone_none]
  exact ⟨hwide, hfail.result, hle, hready, hrsp⟩

/-- Settles O50: a non-zero STATUS rules out the two Ok ends (`Ends.endsFailed`), for a command from the state it runs at
and for any packet from the state in which the engine is ready again. -/
theorem failureIsPrecise : Obligations.FailureIsPrecise :=
  ⟨fun _ _ _ => exec_failure_precise, fun _ _ _ => step_failure_precise⟩

end Sys2Proof.Machine
end

section
/-! Reset (70_reset_and_hazards.md R150): `rst` gives the reset state from any state, no other step newly reaches it, and
four `INIT Vd, 0` clear the wide registers. -/

namespace Sys2Proof.Machine

/-! ### The reset step, and what other steps can reach -/

/-- `rst` wins over everything: the step looks neither at a command taken nor at a packet presented. -/
theorem step_of_rst {s : State} (hr : (portIn s).rst = true) : step s = .next (applyReset s) := by
  simp [step, hr]

theorem atReset_applyReset (s : State) : AtReset (applyReset s) :=
  ⟨readWide_applyReset s, applyReset_status s, applyReset_result s⟩

theorem atReset_of_advanceHost {s : State} (h : AtReset (advanceHost s)) : AtReset s :=
  ⟨fun r => (readWide_advanceHost s r).symm.trans (h.wide r), h.status, h.result⟩

/-- The step that runs the packet taken, whatever the packet, shows a response (R154). -/
theorem step_of_taken_rspValid {s t : State} {p : Packet} (hr : (portIn s).rst = false) (hp : s.taken = some p)
    (ht : step s = .next t) : t.rspValid = true := by
  obtain ⟨u, dest, codes, hu, hends⟩ := step_of_taken_ends hr hp
  obtain rfl : u = t := Host.Outcome.next.inj (hu.symm.trans ht)
  obtain ⟨-, -, -, hrsp, -⟩ := hends.response
  exact hrsp.trans (endCommand_rspValid s)

/-- Without `rst`, the only step to an idle engine that shows no response is the one at which nothing happens: a command
run leaves `rsp_valid` 1, a packet taken leaves `cmd_ready` 0. -/
theorem step_to_silent {s t : State} (hr : (portIn s).rst = false) (ht : step s = .next t) (htaken : t.taken = none)
    (hrsp : t.rspValid = false) : s.taken = none ∧ t = advanceHost s := by
  obtain ⟨hr', -⟩ | ⟨-, p, hp, -⟩ | ⟨-, -, -, hs⟩ | ⟨-, hidle, -, hs⟩ := step_cases s
  · simp [hr] at hr'
  · simp [step_of_taken_rspValid hr hp ht] at hrsp
  · obtain rfl := Host.Outcome.next.inj (hs.symm.trans ht)
    simp at htaken
  · exact ⟨hidle, Host.Outcome.next.inj (ht.symm.trans hs)⟩

theorem step_to_reset {s t : State} (hr : (portIn s).rst = false) (ht : step s = .next t) (hreset : AtReset t)
    (hready : cmdReady t = true) (hrsp : portRspValid t = false) :
    AtReset s ∧ cmdReady s = true ∧ portRspValid s = false := by
  obtain ⟨hidle, rfl⟩ := step_to_silent hr ht (Option.isNone_iff_eq_none.mp hready) hrsp
  exact ⟨atReset_of_advanceHost hreset, Option.isNone_iff_eq_none.mpr hidle, hrsp⟩

/-! ### Clearing the wide registers -/

theorem readWide_respondWide_ok (rd r : WReg) (x : Wide) (s : State) :
    readWide (respondWide rd (.ok x) s) r = if r = rd then x else readWide s r := by
  rw [respondWide, readWide_succeed, readWide_writeWide]

theorem zeroExtend_zero : zeroExtend 0 = 0 :=
  wide_ext fun i hi => by rw [chunk_zeroExtend 0 hi, ite_self, chunk_zero]

theorem exec_init_zero (s : State) (rd : WReg) : exec (.init rd 0) s = .next (respondWide rd (.ok 0) s) := by
  rw [exec_init, zeroExtend_zero]

/-- One `INIT Vd, 0` for each of the four wide registers leaves all of them 0, as reset does. -/
theorem four_init_zero (s : State) : ∃ t0 t1 t2 t3, exec (.init .v0 0) s = .next t0 ∧ exec (.init .v1 0) t0 = .next t1 ∧
    exec (.init .v2 0) t1 = .next t2 ∧ exec (.init .v3 0) t2 = .next t3 ∧
    ∀ r, readWide t3 r = readWide State.reset r := by
  refine ⟨_, _, _, _, exec_init_zero s .v0, exec_init_zero _ .v1, exec_init_zero _ .v2, exec_init_zero _ .v3, fun r => ?_⟩
  cases r <;> simp [readWide_respondWide_ok]

/-- Settles O2: `rst` is the step `applyReset` from every state; any other step to that idle state is the one at which
nothing happens (`step_to_silent`), so it was there already; and each `INIT Vd, 0` clears its own register and keeps the
others (`four_init_zero`). -/
theorem rstResetsFromAnyState : Obligations.RstResetsFromAnyState :=
  ⟨fun s hr => ⟨_, step_of_rst hr, atReset_applyReset s, rfl, rfl, rfl⟩, fun _ _ => step_to_reset, four_init_zero⟩

end Sys2Proof.Machine
end

section
/-! Steps and the handshake (10_state.md R19, R22; 70_reset_and_hazards.md R154 to R157): what each kind of step answers, the
invariant every step keeps, and that no run stops. -/

namespace Sys2Proof.Machine

/-! ### The invariant -/

/-- An idle engine at its reset values meets the invariant, whether or not it shows a response. -/
theorem engineInv_of_atReset {t : State} (h : AtReset t) (hidle : t.taken = none) : EngineInv t :=
  ⟨by simp [h.status], fun hne => absurd h.status hne, fun hbusy => absurd hidle hbusy, fun _ _ => h⟩

theorem atReset_reset : AtReset State.reset := ⟨readWide_reset, rfl, rfl⟩

/-- Settles O3: the reset state is idle and at its reset values. -/
theorem resetMeetsInvariant : Obligations.ResetMeetsInvariant := engineInv_of_atReset atReset_reset rfl

/-- A command's end meets the invariant, whatever its STATUS and RESULT were before: it runs at a state that is ready and
shows a response, and it touches neither. -/
theorem Ends.engineInv {s t : State} {dest : Option WReg} {codes : List (BitVec 8)} (h : Ends s t dest codes)
    (hidle : s.taken = none) (hrsp : s.rspValid = true) : EngineInv t := by
  obtain ⟨hle, hres, htaken, hvalid, -⟩ := h.response
  refine ⟨hle, hres, fun hbusy => absurd (htaken.trans hidle) hbusy, fun _ hsilent => ?_⟩
  rw [hvalid, hrsp] at hsilent
  exact absurd hsilent (by decide)

theorem engineInv_takePacket {s : State} (h : EngineInv s) (p : Packet) : EngineInv (takePacket p s) :=
  ⟨h.statusLegal, h.failedResult, fun _ => rfl, fun hidle => absurd hidle (by simp)⟩

theorem atReset_advanceHost {s : State} (h : AtReset s) : AtReset (advanceHost s) :=
  ⟨fun r => (readWide_advanceHost s r).trans (h.wide r), h.status, h.result⟩

theorem engineInv_advanceHost {s : State} (h : EngineInv s) : EngineInv (advanceHost s) :=
  ⟨h.statusLegal, h.failedResult, h.busySilent, fun hidle hsilent => atReset_advanceHost (h.silentIsReset hidle hsilent)⟩

/-- Settles O4, by what one step can do (`step_cases`): a reset gives reset values, a command run ends in one of the three ways
(`Ends.engineInv`), and taking a packet or doing nothing carries the invariant over. -/
theorem stepKeepsInvariant : Obligations.StepKeepsInvariant := by
  intro s t hs ht
  obtain ⟨-, hstep⟩ | ⟨hr, p, hp, -⟩ | ⟨-, -, -, hstep⟩ | ⟨-, -, -, hstep⟩ := step_cases s
  · obtain rfl := Host.Outcome.next.inj (hstep.symm.trans ht)
    exact engineInv_of_atReset (atReset_applyReset s) rfl
  · obtain ⟨u, dest, codes, hu, hends⟩ := step_of_taken_ends hr hp
    obtain rfl := Host.Outcome.next.inj (hu.symm.trans ht)
    exact hends.engineInv (endCommand_taken s) (endCommand_rspValid s)
  · obtain rfl := Host.Outcome.next.inj (hstep.symm.trans ht)
    exact engineInv_takePacket hs _
  · obtain rfl := Host.Outcome.next.inj (hstep.symm.trans ht)
    exact engineInv_advanceHost hs

/-! ### Taking a packet, running it, and doing nothing -/

section
variable {s : State} {p : Packet}

theorem taken_eq_none_of_cmdReady (h : cmdReady s = true) : s.taken = none := Option.isNone_iff_eq_none.mp h

theorem step_of_presents (hp : Presents s p) (hready : cmdReady s = true) : step s = .next (takePacket p s) := by
  obtain ⟨hr, hvalid, rfl⟩ := hp
  simp [step, hr, hvalid, taken_eq_none_of_cmdReady hready]

theorem step_of_quiet (hr : (portIn s).rst = false) (hvalid : (portIn s).cmdValid = false) (hready : cmdReady s = true) :
    step s = .next (advanceHost s) := by
  simp [step, hr, hvalid, taken_eq_none_of_cmdReady hready]

theorem runPacket_of_ok {i : Instr} (h : decode p = .ok i) (s : State) : runPacket p s = exec i s := by
  rw [runPacket, h]

/-- The step that runs the packet taken ends it with a response and a legal STATUS (R154, 60_exceptions.md R130). -/
theorem step_of_taken_response (hr : (portIn s).rst = false) (hp : s.taken = some p) :
    ∃ t, step s = .next t ∧ t.taken = none ∧ t.rspValid = true ∧ t.host = s.host.tail ∧ t.status.toNat ≤ 6 := by
  obtain ⟨t, dest, codes, ht, hends⟩ := step_of_taken_ends hr hp
  obtain ⟨hle, -, htaken, hvalid, hhost⟩ := hends.response
  exact ⟨t, ht, htaken, hvalid, hhost, hle⟩

/-- While a command is in progress the step does not look at what the host presents. -/
theorem step_of_taken_quiet (hr : (portIn s).rst = false) (hp : s.taken = some p) :
    step s = step { s with host := ⟨false, false, 0⟩ :: s.host.tail } := by
  have hquiet := step_of_taken (s := { s with host := ⟨false, false, 0⟩ :: s.host.tail }) rfl hp
  exact (step_of_taken hr hp).trans hquiet.symm

end

/-- Settles O5: the step runs the packet at `endCommand s` (`step_of_taken`), which leaves registers and response as they
were. -/
theorem stepRunsTakenCommand : Obligations.StepRunsTakenCommand := fun s _ _ hr hp hi =>
  ⟨endCommand s, (step_of_taken hr hp).trans (runPacket_of_ok hi _), readWide_endCommand s, rfl, rfl, rfl, rfl, rfl⟩

/-- Settles O7: a ready engine takes the packet presented (`step_of_presents`); a busy one runs its own, the same with a
quiet host (`step_of_taken_quiet`), and is then ready with nothing queued (`step_of_taken_response`). -/
theorem handshakeHoldsOneCommand : Obligations.HandshakeHoldsOneCommand := by
  refine ⟨fun s p hp hready => ?_, fun s p q ⟨hr, _⟩ hq => ⟨step_of_taken_quiet hr hq, ?_⟩⟩
  · exact ⟨_, step_of_presents hp hready, rfl, rfl, rfl, fun r => readWide_takePacket s r p, rfl, rfl, rfl⟩
  · obtain ⟨t, ht, htaken, hvalid, hhost, -⟩ := step_of_taken_response hr hq
    exact ⟨t, ht, htaken, hvalid, hhost⟩

/-- Settles O8: with nothing presented and nothing taken, only the host's list moves on (`step_of_quiet`). -/
theorem idleEngineKeepsState : Obligations.IdleEngineKeepsState := fun s hr hvalid hready =>
  ⟨_, step_of_quiet hr hvalid hready, readWide_advanceHost s, rfl, rfl, taken_eq_none_of_cmdReady hready, rfl, rfl⟩

/-! ### Runs -/

theorem step_answers_next (s : State) : ∃ t, step s = .next t := by
  obtain ⟨-, hstep⟩ | ⟨hr, p, hp, -⟩ | ⟨-, -, -, hstep⟩ | ⟨-, -, -, hstep⟩ := step_cases s
  · exact ⟨_, hstep⟩
  · obtain ⟨t, dest, codes, ht, -⟩ := step_of_taken_ends hr hp
    exact ⟨t, ht⟩
  · exact ⟨_, hstep⟩
  · exact ⟨_, hstep⟩

theorem runsOn_all (n : Nat) (s : State) : RunsOn n s := by
  induction n generalizing s with
  | zero => exact ⟨s, rfl⟩
  | succ n ih =>
    obtain ⟨t, ht⟩ := step_answers_next s
    exact runsOn_succ ht (ih t)

/-- Settles O9: the step after a packet is taken ends it (`step_of_taken_response`), and since every step answers a next state
no run stops (`runsOn_all`). -/
theorem everyCommandEndsWithResponse : Obligations.EveryCommandEndsWithResponse := by
  refine ⟨fun s p hr hp => ?_, runsOn_all⟩
  obtain ⟨t, ht, htaken, hvalid, -, hle⟩ := step_of_taken_response hr hp
  exact ⟨t, ht, by rw [cmdReady_eq, htaken, Option.isNone_none], hvalid, hle⟩

end Sys2Proof.Machine
end

section
/-! Rules for every command: the STATUS codes it can end with, the registers it can write, and that it does not read the
response the one before it left (10_state.md R12, R15, R16; 60_exceptions.md R131). -/

namespace Sys2Proof.Machine

/-! ### How a command ends -/

section
variable {s t : State} {dest : Option WReg} {codes : List (BitVec 8)}

/-- A command ends with STATUS 0 or with one of its failure codes. -/
theorem Ends.status_mem (h : Ends s t dest codes) (h0 : 0 ∈ codes) : t.status ∈ codes := by
  by_cases hst : t.status = 0
  · rwa [hst]
  · obtain ⟨hmem, -⟩ := h.endsFailed hst
    exact hmem

/-- A command writes no wide register but its destination. -/
theorem Ends.keepsWide_of_ne_dest (h : Ends s t dest codes) {r : WReg} (hr : dest ≠ some r) :
    readWide t r = readWide s r := by
  cases h with
  | scalar v h => exact h.wide r
  | wide rd x hd h => exact h.others r fun heq => hr (heq ▸ hd)
  | failed e hc h => exact h.wide r

end

theorem zero_mem_possibleStatus (i : Instr) : 0 ∈ possibleStatus i := by cases i <;> exact List.mem_cons_self

/-- Settles O51: every command answers a state that ends in one of the three ways (`exec_ends`), so its STATUS is 0 or one of
the failure codes listed for it. -/
theorem statusIsOneOfTheListed : Obligations.StatusIsOneOfTheListed := by
  intro i s
  obtain ⟨t, ht, hends⟩ := exec_ends i s
  exact ⟨t, ht, hends.status_mem (zero_mem_possibleStatus i)⟩

/-- Settles O52: each of the three ends keeps the handshake, the host's input and every register that is not the
destination. -/
theorem onlyDestinationIsWritten : Obligations.OnlyDestinationIsWritten := by
  intro i s t ht
  obtain ⟨u, hu, hends⟩ := exec_ends i s
  obtain rfl := Host.Outcome.next.inj (hu.symm.trans ht)
  obtain ⟨-, -, hshell⟩ := hends.response
  exact ⟨hshell, fun _ => hends.keepsWide_of_ne_dest⟩

/-! ### The old response

Every meaning reads the state through `readWide` and ends through `respondWide`, `respondScalar` or `raise`; none of them
sees what STATUS and RESULT held. -/

section
variable (s : State) (status : BitVec 8) (result : BitVec 64)

theorem readWide_withResponse (r : WReg) : readWide { s with status := status, result := result } r = readWide s r := by
  cases r <;> rfl

theorem raise_withResponse (e : ErrorKind) : raise e { s with status := status, result := result } = raise e s := rfl

theorem respondScalar_withResponse (r : Except ErrorKind (BitVec 64)) :
    respondScalar r { s with status := status, result := result } = respondScalar r s := by
  cases r <;> rfl

theorem respondWide_withResponse (rd : WReg) (r : Except ErrorKind Wide) :
    respondWide rd r { s with status := status, result := result } = respondWide rd r s := by
  cases r with
  | error e => rfl
  | ok x => cases rd <;> rfl

end

/-- Settles O53, command by command: the three `_withResponse` lemmas of the ends, with `readWide_withResponse` for what is
read. -/
theorem oldResponseIsNeverRead : Obligations.OldResponseIsNeverRead := by
  intro i s status result
  cases i with
  | init => simp only [exec, execInit, respondWide_withResponse]
  | add | sub | mul | div | mod =>
    simp only [exec, execAdd, execSub, execMul, execDiv, execMod, readWide_withResponse, respondWide_withResponse]
  | cmp | bitlen | iszero =>
    simp only [exec, execCmp, execBitlen, execIszero, readWide_withResponse, respondScalar_withResponse]
  | encode | decode | validate =>
    simp only [exec, execEncode, execDecode, execValidate, respondScalar_withResponse]
  | read =>
    simp only [exec, execRead, readWide_withResponse, respondWide_withResponse, respondScalar_withResponse,
      raise_withResponse]
  | write => simp only [exec, execWrite, readWide_withResponse, respondWide_withResponse, raise_withResponse]

end Sys2Proof.Machine
end

section
/-! Packets and assembly (30_encoding.md R50 to R64): decoding and encoding undo each other up to the ignored fields, the
opcode table's masked match is the decoder's choice, and the assembler writes every canonical command. -/

namespace Sys2Proof.Machine

/-! ### Decoding what was encoded -/

/-- Settles O10, command by command: each is assembled by `mkPacket`, `decode_mkPacket` picks the same row of the map, and
reading a field of an assembled packet gives that field back. -/
theorem decodeOfEncode : Obligations.DecodeOfEncode := by
  intro i
  cases i with
  | init => simp only [encode, decode_mkPacket, operands, packetRd_mkPacket, packetData_mkPacket, ofNumber_number]
  | add | sub | mul | div | mod =>
    simp only [encode, decode_mkPacket, operands, packetRd_mkPacket, packetRa_mkPacket, packetRb_mkPacket, ofNumber_number]
  | cmp => simp only [encode, decode_mkPacket, operands, packetRa_mkPacket, packetRb_mkPacket, ofNumber_number]
  | bitlen | iszero => simp only [encode, decode_mkPacket, operands, packetRa_mkPacket, ofNumber_number]
  | encode => simp only [encode, decode_mkPacket, operands, packetData_mkPacket, encodeParams_encodeWord]
  | decode | validate => simp only [encode, decode_mkPacket, operands, packetDesc_mkPacket]
  | read =>
    simp only [encode, decode_mkPacket, operands, packetRd_mkPacket, packetRa_mkPacket, packetDesc_mkPacket,
      ofNumber_number]
  | write =>
    simp only [encode, decode_mkPacket, operands, packetRd_mkPacket, packetRa_mkPacket, packetDesc_mkPacket,
      packetData_mkPacket, ofNumber_number]

/-- Settles O14, by running the decoder on the ten words. -/
theorem sampleWordsDecode : Obligations.SampleWordsDecode := by
  unfold Obligations.SampleWordsDecode
  decide

/-! ### Encoding what was decoded -/

/-- Reading a parameter word and writing it again keeps bits 38:0 and clears the rest (R60). -/
theorem getLsbD_encodeWord_encodeParams (v : BitVec 64) (b : Nat) :
    (encodeWord (encodeParams v)).getLsbD b = (decide (b < 39) && v.getLsbD b) := by
  by_cases hb : b < 39
  · simp only [hb, decide_true, Bool.true_and]
    interval_cases b <;> simp [encodeWord, encodeParams]
  · rw [getLsbD_encodeWord_of_ge _ (Nat.le_of_not_lt hb)]
    simp [hb]

/-- A register field as it is assembled again: kept where the command uses it, V0 where it does not. -/
def usedReg (used : Bool) (n : BitVec 2) : WReg := if used then .ofNumber n else .v0

theorem number_usedReg (used : Bool) (n : BitVec 2) : (usedReg used n).number = if used then n else 0 := by
  cases used with
  | true => exact number_ofNumber n
  | false => rfl

theorem getLsbD_eq_used_all (v : BitVec 64) (b : Nat) : v.getLsbD b = (decide (b < 64) && v.getLsbD b) := by
  by_cases hb : b < 64
  · simp [hb]
  · rw [BitVec.getLsbD_of_ge v b (Nat.le_of_not_lt hb), Bool.and_false]

theorem getLsbD_eq_used_none (v : BitVec 64) (b : Nat) : (0 : BitVec 64).getLsbD b = (decide (b < 0) && v.getLsbD b) := by
  simp

/-- The operands of a packet are assembled into the packet's used fields, with 0 in the fields the row of R56 marks "-". -/
theorem encode_operands (op : Opcode) (p : Packet) : ∃ data,
    encode (operands op p) =
      mkPacket op (usedReg (fieldUse op).rd (packetRd p)) (usedReg (fieldUse op).ra (packetRa p))
        (usedReg (fieldUse op).rb (packetRb p)) (if (fieldUse op).desc then packetDesc p else 0) data ∧
    ∀ b, data.getLsbD b = (decide (b < (fieldUse op).dataBits) && (packetData p).getLsbD b) := by
  cases op with
  | init | write => exact ⟨_, rfl, getLsbD_eq_used_all _⟩
  | encode => exact ⟨_, rfl, getLsbD_encodeWord_encodeParams _⟩
  | _ => exact ⟨_, rfl, getLsbD_eq_used_none _⟩

/-- Settles O11: what was decoded is the packet's operands (`decode_eq_ok`), which are assembled into its used fields and
nothing else (`encode_operands`). -/
theorem encodeOfDecodeClearsIgnored : Obligations.EncodeOfDecodeClearsIgnored := by
  intro p i hi
  obtain ⟨-, op, hop, rfl⟩ := decode_eq_ok.mp hi
  obtain ⟨data, henc, hdata⟩ := encode_operands op p
  rw [henc, opcode_operands, packetOpcode_mkPacket, packetRsv_mkPacket, packetRd_mkPacket, packetRa_mkPacket,
    packetRb_mkPacket, packetDesc_mkPacket, packetData_mkPacket, number_usedReg, number_usedReg, number_usedReg]
  exact ⟨hop.symm, rfl, rfl, rfl, rfl, rfl, hdata⟩

/-! ### The opcode table's match -/

/-- The mask of the opcode table keeps CW bits 7:0 and 31:14. -/
theorem getLsbD_opcodeMask (b : Nat) : opcodeMask.getLsbD b = (decide (b < 8) || decide (14 ≤ b ∧ b < 32)) := by
  by_cases hb : b < 32
  · interval_cases b <;> decide
  · rw [BitVec.getLsbD_of_ge opcodeMask b (Nat.le_of_not_lt hb)]
    simp
    omega

theorem getLsbD_packetCw_and_mask (p : Packet) (b : Nat) : (packetCw p &&& opcodeMask).getLsbD b =
    if b < 8 then (packetOpcode p).getLsbD b else if 14 ≤ b then (packetRsv p).getLsbD (b - 14) else false := by
  rw [BitVec.getLsbD_and, getLsbD_opcodeMask, packetCw, packetOpcode, packetRsv]
  simp only [BitVec.getLsbD_extractLsb']
  by_cases h8 : b < 8
  · simp [h8, show b < 32 by omega]
  · by_cases h14 : 14 ≤ b
    · by_cases h32 : b < 32
      · simp [h8, h14, h32, show b - 14 < 18 by omega, show 14 + (b - 14) = b by omega]
      · simp [h8, h14, h32, show ¬ b - 14 < 18 by omega]
    · simp [h8, h14]

/-- The masked CW is an opcode number exactly when `rsv` is 0 and the opcode field is that number. -/
theorem masked_cw_eq_iff (p : Packet) (n : BitVec 8) :
    packetCw p &&& opcodeMask = n.setWidth 32 ↔ packetRsv p = 0 ∧ packetOpcode p = n := by
  have hn : ∀ b, 8 ≤ b → n.getLsbD b = false := BitVec.getLsbD_of_ge n
  constructor
  · intro h
    have hbit : ∀ b, b < 32 → (packetCw p &&& opcodeMask).getLsbD b = n.getLsbD b := fun b hb => by
      rw [h, BitVec.getLsbD_setWidth, decide_eq_true hb, Bool.true_and]
    simp only [getLsbD_packetCw_and_mask] at hbit
    constructor
    · apply BitVec.eq_of_getLsbD_eq
      intro i hi
      have hi14 := hbit (i + 14) (by omega)
      rw [if_neg (by omega), if_pos (by omega), Nat.add_sub_cancel, hn _ (by omega)] at hi14
      rw [hi14, BitVec.ofNat_eq_ofNat, BitVec.getLsbD_zero]
    · apply BitVec.eq_of_getLsbD_eq
      intro i hi
      have hi8 := hbit i (by omega)
      rwa [if_pos hi] at hi8
  · rintro ⟨hrsv, rfl⟩
    apply BitVec.eq_of_getLsbD_eq
    intro b hb
    rw [getLsbD_packetCw_and_mask, BitVec.getLsbD_setWidth, decide_eq_true hb, Bool.true_and, hrsv]
    split
    · rfl
    · rename_i h8
      rw [hn b (Nat.le_of_not_lt h8)]
      simp

/-- A packet spells the command of a row exactly when `rsv` is 0 and the opcode field is the row's number. -/
theorem decode_opcode_iff (p : Packet) (op : Opcode) :
    (∃ i, decode p = .ok i ∧ i.opcode = op) ↔ packetRsv p = 0 ∧ packetOpcode p = op.number := by
  constructor
  · rintro ⟨i, hi, rfl⟩
    obtain ⟨hrsv, op, hop, rfl⟩ := decode_eq_ok.mp hi
    rw [opcode_operands]
    exact ⟨hrsv, hop⟩
  · rintro ⟨hrsv, hop⟩
    exact ⟨operands op p, decode_eq_ok.mpr ⟨hrsv, op, hop, rfl⟩, opcode_operands op p⟩

/-- Settles O13: the masked match and the decoder's choice are the same two field conditions (`masked_cw_eq_iff`,
`decode_opcode_iff`); the 14 numbers are those of `Opcode.number`. -/
theorem opcodeTableDecides : Obligations.OpcodeTableDecides :=
  ⟨fun p op => (masked_cw_eq_iff p op.number).trans (decode_opcode_iff p op).symm, rfl⟩

/-! ### The assembler -/

/-- A descriptor with a defined mode is of modes 0 to 5 or of modes 6 to 11. -/
theorem descModeIs_of_le {d : Desc} (h : (descMode d).toNat ≤ 11) :
    descModeIs true d = true ∨ descModeIs false d = true := by
  cases hm : Mode.ofField (descMode d) with
  | none => exact absurd ((ofField_eq_none _).mp hm) (Nat.not_lt.mpr h)
  | some m =>
    cases hs : m.isScalar with
    | true => exact .inl (descModeIs_iff.mpr ⟨m, hm, hs⟩)
    | false => exact .inr (descModeIs_iff.mpr ⟨m, hm, hs⟩)

theorem exists_asmLine_read {rd ra : WReg} {d : Desc} (hw : WellFormed (.read rd ra d)) (hd : (descMode d).toNat ≤ 11) :
    ∃ a : AsmLine, a.legal = true ∧ assemble a = .read rd ra d := by
  rcases descModeIs_of_le hd with h | h
  · obtain rfl : rd = .v0 := eq_of_beq ((readFieldsCanonical_scalar h rd).symm.trans hw)
    exact ⟨.readScalar ra d, h, rfl⟩
  · exact ⟨.readSub rd ra d, h, rfl⟩

theorem exists_asmLine_write {rd ra : WReg} {d : Desc} {v : BitVec 64} (hw : WellFormed (.write rd ra d v))
    (hd : (descMode d).toNat ≤ 11) : ∃ a : AsmLine, a.legal = true ∧ assemble a = .write rd ra d v := by
  rcases descModeIs_of_le hd with h | h
  · obtain rfl : ra = .v0 := eq_of_beq ((writeFieldsCanonical_scalar h ra v).symm.trans hw)
    exact ⟨.writeScalar rd d v, h, rfl⟩
  · obtain rfl : v = 0 := eq_of_beq ((writeFieldsCanonical_sub h ra v).symm.trans hw)
    exact ⟨.writeSub rd d ra, h, rfl⟩

/-- Every canonical command whose descriptor has a defined mode is written by the line of its own name (R63). -/
theorem exists_asmLine (i : Instr) (hw : WellFormed i) (hread : ∀ rd ra d, i = .read rd ra d → (descMode d).toNat ≤ 11)
    (hwrite : ∀ rd ra d v, i = .write rd ra d v → (descMode d).toNat ≤ 11) :
    ∃ a : AsmLine, a.legal = true ∧ assemble a = i := by
  cases i with
  | init rd v => exact ⟨.init rd (some v), rfl, rfl⟩
  | add rd ra rb => exact ⟨.add rd ra rb, rfl, rfl⟩
  | sub rd ra rb => exact ⟨.sub rd ra rb, rfl, rfl⟩
  | mul rd ra rb => exact ⟨.mul rd ra rb, rfl, rfl⟩
  | div rd ra rb => exact ⟨.div rd ra rb, rfl, rfl⟩
  | mod rd ra rb => exact ⟨.mod rd ra rb, rfl, rfl⟩
  | cmp ra rb => exact ⟨.cmp ra rb, rfl, rfl⟩
  | bitlen ra => exact ⟨.bitlen ra, rfl, rfl⟩
  | iszero ra => exact ⟨.iszero ra, rfl, rfl⟩
  | encode p => exact ⟨.encode p.mode p.offset (some p.sign) (some p.le) (some p.csel), rfl, rfl⟩
  | decode d => exact ⟨.decode d, rfl, rfl⟩
  | validate d => exact ⟨.validate d, rfl, rfl⟩
  | read rd ra d => exact exists_asmLine_read hw (hread rd ra d rfl)
  | write rd ra d v => exact exists_asmLine_write hw (hwrite rd ra d v rfl)

/-- Settles O54: legal lines are canonical (`wellFormed_assemble`), canonical commands have a line (`exists_asmLine`), and the
pseudo-instructions are so defined (R64). -/
theorem assemblerWritesCanonical : Obligations.AssemblerWritesCanonical :=
  ⟨fun _ => wellFormed_assemble, exists_asmLine, fun _ _ => ⟨rfl, rfl, rfl, rfl, rfl⟩, fun _ => rfl⟩

end Sys2Proof.Machine
end

section
/-! The laws of arithmetic over whole values (40_arithmetic.md section 11), and restoring division (sections 6 and 7): what
each command writes, as an equation between registers, and what the commands give one after another. -/

namespace Sys2Proof.Machine

/-! ### Restoring division -/

/-- Settles O21: after all 8192 steps the reference algorithm holds quotient and remainder of the whole dividend
(`restoringDivision_value`), which are what DIV and MOD write. -/
theorem restoringDivisionAgrees : Obligations.RestoringDivisionAgrees := by
  intro s rd ra rb hb
  obtain ⟨t, q, ht, he, hq⟩ := exec_div_endsWide rd ra hb
  obtain ⟨t', r, ht', he', hr⟩ := exec_mod_endsWide rd ra hb
  refine ⟨t, t', q, r, ht, he, ht', he', ?_⟩
  rw [restoringDivision_value _ _ hb 8192 le_rfl, Nat.sub_self, Nat.pow_zero, Nat.div_one, Nat.mul_one, hq, hr]
  rfl

/-! ### What the commands write -/

section
variable {s : State} {ra rb : WReg} (rd : WReg)

theorem exec_add_endsWide (h : val s ra + val s rb < 2 ^ Config.W) :
    ∃ t, exec (.add rd ra rb) s = .next t ∧ EndsWide s t rd (readWide s ra + readWide s rb) := by
  have hsum : ofValue (val s ra + val s rb) = readWide s ra + readWide s rb :=
    BitVec.eq_of_toNat_eq ((toNat_ofValue h).trans (BitVec.toNat_add_of_lt h).symm)
  rw [← hsum]
  exact exec_endsWide (exec_add_value s rd ra rb) (if_pos h)

theorem exec_add_endsFailed (h : 2 ^ Config.W ≤ val s ra + val s rb) :
    ∃ t, exec (.add rd ra rb) s = .next t ∧ EndsFailed s t 1 :=
  exec_endsFailed (exec_add_value s rd ra rb) (if_neg (Nat.not_lt.mpr h))

theorem exec_mul_endsWide (h : val s ra * val s rb < 2 ^ Config.W) :
    ∃ t, exec (.mul rd ra rb) s = .next t ∧ EndsWide s t rd (readWide s ra * readWide s rb) := by
  have hprod : ofValue (val s ra * val s rb) = readWide s ra * readWide s rb :=
    BitVec.eq_of_toNat_eq ((toNat_ofValue h).trans (BitVec.toNat_mul_of_lt h).symm)
  rw [← hprod]
  exact exec_endsWide (exec_mul_value s rd ra rb) (if_pos h)

theorem exec_mul_endsFailed (h : 2 ^ Config.W ≤ val s ra * val s rb) :
    ∃ t, exec (.mul rd ra rb) s = .next t ∧ EndsFailed s t 1 :=
  exec_endsFailed (exec_mul_value s rd ra rb) (if_neg (Nat.not_lt.mpr h))

variable (s ra rb)

theorem exec_sub_endsWide :
    ∃ t, exec (.sub rd ra rb) s = .next t ∧ EndsWide s t rd (readWide s ra - readWide s rb) :=
  exec_endsWide (exec_sub_value s rd ra rb) rfl

theorem exec_cmp_endsScalar :
    ∃ t, exec (.cmp ra rb) s = .next t ∧ EndsScalar s t (compareCode (compare (val s ra) (val s rb))) :=
  exec_endsScalar (exec_cmp_value s ra rb) rfl

end

/-- The difference of two bit vectors as an integer: the difference of the values, modulo 2^w. -/
theorem natCast_toNat_sub {w : Nat} (x y : BitVec w) : ((x - y).toNat : Int) = ((x.toNat : Int) - y.toNat) % 2 ^ w := by
  rw [BitVec.toNat_sub, Int.natCast_emod, Int.natCast_add, Int.natCast_sub y.isLt.le, Int.natCast_pow, Nat.cast_ofNat,
    sub_add_eq_add_sub, add_sub_assoc, Int.add_emod_left]

/-- Settles O25, row by row of the table of section 11: sum, difference, product (each with its failure), quotient and
remainder (with a divisor of 0), and the three answers of CMP. -/
theorem arithmeticLawsByValue : Obligations.ArithmeticLawsByValue := by
  intro s rd ra rb
  refine ⟨fun h => ?_, exec_add_endsFailed rd, ?_, fun h => ?_, exec_mul_endsFailed rd, exec_div_endsWide rd ra,
    fun h => exec_endsFailed (exec_div_value s rd ra rb) (if_pos h), exec_mod_endsWide rd ra,
    fun h => exec_endsFailed (exec_mod_value s rd ra rb) (if_pos h), ?_⟩
  · obtain ⟨t, ht, he⟩ := exec_add_endsWide rd h
    exact ⟨t, _, ht, he, BitVec.toNat_add_of_lt h⟩
  · obtain ⟨t, ht, he⟩ := exec_sub_endsWide s ra rb rd
    exact ⟨t, _, ht, he, natCast_toNat_sub _ _⟩
  · obtain ⟨t, ht, he⟩ := exec_mul_endsWide rd h
    exact ⟨t, _, ht, he, BitVec.toNat_mul_of_lt h⟩
  · obtain ⟨t, ht, he⟩ := exec_cmp_endsScalar s ra rb
    exact ⟨t, _, ht, he, compareCode_cases _ _⟩

/-! ### One command after another -/

section
variable {s t : State} {rd : WReg} {x : Wide} (h : EndsWide s t rd x)
include h

theorem EndsWide.val_dest : val t rd = x.toNat := congrArg BitVec.toNat h.dest

theorem EndsWide.val_other {r : WReg} (hr : r ≠ rd) : val t r = val s r := congrArg BitVec.toNat (h.others r hr)

end

theorem readWide_eq_zero_iff (s : State) (r : WReg) : readWide s r = 0 ↔ val s r = 0 := by
  rw [← BitVec.toNat_inj, BitVec.ofNat_eq_ofNat, BitVec.toNat_zero, val]

theorem readWide_eq_one_iff (s : State) (r : WReg) : readWide s r = 1 ↔ val s r = 1 := by
  rw [← BitVec.toNat_inj, BitVec.ofNat_eq_ofNat, BitVec.toNat_one (by decide), val]

/-- Settles O26: ADD writes a + b; with b's register kept, SUB writes (a + b) - b; with a's register kept, CMP compares
a + b to a. -/
theorem subUndoesAdd : Obligations.SubUndoesAdd := by
  intro s rd re ra rb hfit
  obtain ⟨t, ht, he⟩ := exec_add_endsWide rd hfit
  refine ⟨t, ht, he.status, fun hrb => ?_, fun hra hb => ?_, fun ha => ?_⟩
  · obtain ⟨u, hu, heu⟩ := exec_sub_endsWide t rd rb re
    refine ⟨u, hu, heu.status, ?_⟩
    rw [heu.dest, he.dest, he.others rb hrb.symm, BitVec.add_sub_cancel]
  · obtain ⟨u, hu, heu⟩ := exec_cmp_endsScalar t rd ra
    refine ⟨u, hu, heu.status, ?_⟩
    have hsum : val t rd = val s ra + val s rb := he.val_dest.trans (BitVec.toNat_add_of_lt hfit)
    obtain ⟨-, -, hgt⟩ := compareCode_cases (val t rd) (val t ra)
    rw [heu.result, hgt, hsum, he.val_other hra.symm]
    omega
  · rw [he.dest, (readWide_eq_zero_iff s ra).mpr ha, BitVec.ofNat_eq_ofNat, BitVec.zero_add]

/-- Settles O27: MUL depends on the operands through their product alone, which is a for b = 1 and 0 for b = 0. -/
theorem mulOneZeroCommutes : Obligations.MulOneZeroCommutes := by
  intro s rd ra rb
  refine ⟨?_, fun h1 => ?_, fun h0 => ?_⟩
  · rw [exec_mul_value, exec_mul_value, Nat.mul_comm]
  · have hprod : val s ra * val s rb = val s ra := by rw [h1, Nat.mul_one]
    obtain ⟨t, ht, he⟩ := exec_mul_endsWide rd (hprod.trans_lt (val_lt s ra))
    rw [(readWide_eq_one_iff s rb).mpr h1, BitVec.ofNat_eq_ofNat, BitVec.mul_one] at he
    exact ⟨t, ht, he⟩
  · have hprod : val s ra * val s rb = 0 := by rw [h0, Nat.mul_zero]
    obtain ⟨t, ht, he⟩ := exec_mul_endsWide rd (hprod.trans_lt (Nat.two_pow_pos _))
    rw [(readWide_eq_zero_iff s rb).mpr h0, BitVec.ofNat_eq_ofNat, BitVec.mul_zero] at he
    exact ⟨t, ht, he⟩

/-- DIV, MOD, MUL and ADD rebuild the dividend of V0 by the divisor of V1, and no step overflows: q * b is at most a, and
q * b + r is a. -/
theorem rebuild_dividend {s : State} (hb : val s .v1 ≠ 0) :
    ∃ t1 t2 t3 t4, exec (.div .v2 .v0 .v1) s = .next t1 ∧ exec (.mod .v3 .v0 .v1) t1 = .next t2 ∧
      exec (.mul .v2 .v2 .v1) t2 = .next t3 ∧ exec (.add .v2 .v2 .v3) t3 = .next t4 ∧
      t1.status = 0 ∧ t2.status = 0 ∧ t3.status = 0 ∧ t4.status = 0 ∧ readWide t4 .v2 = readWide s .v0 := by
  obtain ⟨t1, q, h1, e1, hq⟩ := exec_div_endsWide .v2 .v0 hb
  have b1 : val t1 .v1 = val s .v1 := e1.val_other (by decide)
  obtain ⟨t2, r, h2, e2, hr⟩ := exec_mod_endsWide .v3 .v0 (b1.trans_ne hb)
  rw [b1, e1.val_other (r := .v0) (by decide)] at hr
  have q2 : val t2 .v2 = val s .v0 / val s .v1 := (e2.val_other (by decide)).trans (e1.val_dest.trans hq)
  have b2 : val t2 .v1 = val s .v1 := (e2.val_other (by decide)).trans b1
  have hmul : val t2 .v2 * val t2 .v1 < 2 ^ Config.W := by
    rw [q2, b2]
    exact (Nat.div_mul_le_self _ _).trans_lt (val_lt s .v0)
  obtain ⟨t3, h3, e3⟩ := exec_mul_endsWide .v2 hmul
  have p3 : val t3 .v2 = val s .v0 / val s .v1 * val s .v1 := by
    rw [e3.val_dest, BitVec.toNat_mul_of_lt hmul]
    exact congrArg₂ (· * ·) q2 b2
  have r3 : val t3 .v3 = val s .v0 % val s .v1 := (e3.val_other (by decide)).trans (e2.val_dest.trans hr)
  have hsum : val t3 .v2 + val t3 .v3 = val s .v0 := by rw [p3, r3, Nat.div_add_mod']
  have hadd : val t3 .v2 + val t3 .v3 < 2 ^ Config.W := hsum.trans_lt (val_lt s .v0)
  obtain ⟨t4, h4, e4⟩ := exec_add_endsWide .v2 hadd
  have a4 : val t4 .v2 = val s .v0 := e4.val_dest.trans ((BitVec.toNat_add_of_lt hadd).trans hsum)
  exact ⟨t1, t2, t3, t4, h1, h2, h3, h4, e1.status, e2.status, e3.status, e4.status, BitVec.eq_of_toNat_eq a4⟩

/-- Settles O28: `rebuild_dividend`; and with a ≥ b the difference SUB writes is that of the values, so that ADD of b gives
a, which fits. -/
theorem divModRebuildsDividend : Obligations.DivModRebuildsDividend := by
  refine ⟨fun s hb => rebuild_dividend hb, fun s rd re ra rb hle hrb => ?_⟩
  obtain ⟨t, ht, he⟩ := exec_sub_endsWide s ra rb rd
  have hdiff : val t rd = val s ra - val s rb := he.val_dest.trans (BitVec.toNat_sub_of_le hle)
  have hsum : val t rd + val t rb = val s ra := by rw [hdiff, he.val_other hrb.symm, Nat.sub_add_cancel hle]
  obtain ⟨u, hu, heu⟩ := exec_add_endsWide re (hsum.trans_lt (val_lt s ra))
  refine ⟨t, u, ht, hu, he.status, heu.status, ?_⟩
  rw [heu.dest, he.dest, he.others rb hrb.symm, BitVec.sub_add_cancel]

theorem boolCode_eq_one_iff (b : Bool) : boolCode b = 1 ↔ b = true := by cases b <;> decide

/-- Settles O29: CMP answers Equal exactly for equal values (`compareCode_cases`), the difference is 0 exactly then, and
ISZERO answers 1 exactly for 0 (`boolCode_eq_one_iff`). -/
theorem cmpEqualIffSubIsZero : Obligations.CmpEqualIffSubIsZero := by
  intro s rd ra rb
  obtain ⟨t, ht, het⟩ := exec_cmp_endsScalar s ra rb
  obtain ⟨u, hu, heu⟩ := exec_sub_endsWide s ra rb rd
  obtain ⟨w, hw, hew⟩ := exec_endsScalar (exec_iszero_value u rd) rfl
  obtain ⟨-, hequal, -⟩ := compareCode_cases (val s ra) (val s rb)
  refine ⟨t, u, w, ht, hu, hw, ?_, ?_⟩
  · rw [het.result, hequal, ← readWide_eq_zero_iff, heu.dest]
    exact BitVec.toNat_inj.trans sub_eq_zero.symm
  · rw [hew.result, boolCode_eq_one_iff, decide_eq_true_iff, readWide_eq_zero_iff]

end Sys2Proof.Machine
end

section
/-! The registers as values, chunks, units and bytes (10_state.md R11; 20_memory.md R31 to R41), and the mask rule for offsets
(41_index_codec.md section 2). -/

namespace Sys2Proof.Machine

/-! ### Values and chunks -/

/-- Settles O30: a value is the sum of its chunks (`sumChunks_all`), 128 chunks are one register (`chunk_ofChunks`,
`wide_ext`), and a number below 2^W is the value of one (`toNat_ofValue`). -/
theorem valueIsSumOfChunks : Obligations.ValueIsSumOfChunks := by
  refine ⟨fun x => ⟨(sumChunks_all x).symm, x.isLt⟩, fun w => ⟨ofChunks w, fun _ => chunk_ofChunks w, fun y hy => ?_⟩,
    fun n hn => ⟨ofValue n, toNat_ofValue hn, fun y hy => BitVec.eq_of_toNat_eq (hy.trans (toNat_ofValue hn).symm)⟩⟩
  exact wide_ext fun i hi => (hy i hi).trans (chunk_ofChunks w hi).symm

/-! ### Units -/

/-- The unit bit b lies in is b div unit_bits, and no other (R32). -/
theorem unit_of_bit (m : Mode) {b : Nat} (hb : b < 8192) :
    ∃ k, k < m.unitCount ∧ m.unitBits * k ≤ b ∧ b < m.unitBits * k + m.unitBits ∧
      ∀ k', m.unitBits * k' ≤ b → b < m.unitBits * k' + m.unitBits → k' = k := by
  have hpos := unitBits_pos m
  refine ⟨b / m.unitBits, ?_, Nat.mul_div_le b _, ?_, fun k' hle hlt => ?_⟩
  · rwa [Nat.div_lt_iff_lt_mul hpos, unitCount_mul_unitBits]
  · rw [← Nat.mul_succ]
    exact Nat.lt_mul_div_succ b hpos
  · rw [← Nat.mul_succ, Nat.mul_comm] at hlt
    rw [Nat.mul_comm] at hle
    exact (Nat.div_eq_of_lt_le hle hlt).symm

/-- Settles O32: the bits of a unit are `testBit_unitValue`, the tiling is `unit_of_bit`, and a scalar unit's place in its
chunk is `unitChunk_lt`, `unit_start` and `unit_end`. -/
theorem unitsTileTheRegister : Obligations.UnitsTileTheRegister := by
  refine ⟨fun x m k i hi => ?_, fun m b => unit_of_bit m,
    fun m k hm hk => ⟨unitChunk_lt hm hk, unit_start hm k, unit_end hm k⟩⟩
  rw [testBit_unitValue, decide_eq_true hi, Bool.true_and]

/-! ### The byte image -/

/-- The place of byte j counted from the least significant one: j itself, or from the other end in big-endian order. -/
def byteIndex (le : Bool) (j : Nat) : Nat := if le then j else 1023 - j

theorem bytePos_eq (le : Bool) (j : Nat) : bytePos le j = 8 * byteIndex le j := by cases le <;> rfl

theorem byteIndex_lt {j : Nat} (le : Bool) (h : j < 1024) : byteIndex le j < 1024 := by
  cases le
  · exact (Nat.sub_le 1023 j).trans_lt (by decide)
  · exact h

theorem byteIndex_byteIndex {j : Nat} (le : Bool) (h : j < 1024) : byteIndex le (byteIndex le j) = j := by
  cases le
  · exact Nat.sub_sub_self (Nat.le_of_lt_succ h)
  · rfl

theorem getD_toList (B : Vector Byte 1024) {j : Nat} (h : j < 1024) : B.toList.getD j 0 = B[j] := by
  rw [List.getD_eq_getElem _ _ (by rwa [Vector.length_toList]), Vector.getElem_toList]

/-- FromBytes by value, with the bytes in order of significance (R41). -/
theorem fromBytes_toNat_byteIndex (B : Vector Byte 1024) (le : Bool) :
    (fromBytes B le).toNat = sumBytes (fun i => B.toList.getD (byteIndex le i) 0) true 1024 := fromBytes_toNat B le

/-- The byte of ToBytes at significance i is the base-256 digit i of the value. -/
theorem toBytes_byteIndex (x : Wide) (le : Bool) {i : Nat} (h : i < 1024) :
    (toBytes x le).toList.getD (byteIndex le i) 0 = BitVec.ofNat 8 (x.toNat >>> (8 * i)) := by
  rw [getD_toList _ (byteIndex_lt le h), toBytes, Vector.getElem_ofFn, bytePos_eq, byteIndex_byteIndex le h]

theorem fromBytes_toBytes (x : Wide) (le : Bool) : fromBytes (toBytes x le) le = x := by
  apply BitVec.eq_of_toNat_eq
  rw [fromBytes_toNat_byteIndex, sumBytes_congr fun _ => toBytes_byteIndex x le, sumBytes_value,
    show 8 * 1024 = 8192 from rfl, Nat.mod_eq_of_lt x.isLt]

theorem toBytes_fromBytes (B : Vector Byte 1024) (le : Bool) : toBytes (fromBytes B le) le = B := by
  refine Vector.ext fun j hj => BitVec.eq_of_toNat_eq ?_
  rw [toBytes_toNat _ _ hj, fromBytes_toNat_byteIndex, bytePos_eq, sumBytes_digit _ (byteIndex_lt le hj),
    byteIndex_byteIndex le hj, getD_toList _ hj]

/-- Byte j of the little-endian image is the mode-2 unit j. -/
theorem toBytes_little_eq_unitValue (x : Wide) {j : Nat} (h : j < 1024) :
    ((toBytes x true)[j]).toNat = unitValue x .byte j := by
  rw [toBytes_toNat _ _ h, unitValue, Nat.shiftRight_eq_div_pow]
  rfl

theorem toBytes_big_eq_reverse (x : Wide) {j : Nat} (h : j < 1024) : (toBytes x false)[j] = (toBytes x true)[1023 - j] := by
  apply BitVec.eq_of_toNat_eq
  rw [toBytes_toNat _ _ h, toBytes_toNat _ _ (by omega)]
  rfl

/-- Settles O33: each round trip by value, byte for base-256 digit (`fromBytes_toBytes`, `toBytes_fromBytes`), and the two
readings of a byte's position. -/
theorem byteImageRoundTrip : Obligations.ByteImageRoundTrip :=
  ⟨fromBytes_toBytes, toBytes_fromBytes, fun x _ h => toBytes_little_eq_unitValue x h,
    fun x _ h => toBytes_big_eq_reverse x h⟩

/-! ### The mask rule -/

/-- Bits n and up of a word are 0 exactly when its value is below 2^n. -/
theorem and_high_mask_eq_zero_iff {w : Nat} (x : BitVec w) (n : Nat) :
    x &&& (BitVec.allOnes w <<< n) = 0 ↔ x.toNat < 2 ^ n := by
  have hbit : ∀ b, b < w → (x &&& (BitVec.allOnes w <<< n)).getLsbD b = (decide (n ≤ b) && x.getLsbD b) := by
    intro b hb
    rw [BitVec.getLsbD_and, BitVec.getLsbD_shiftLeft, BitVec.getLsbD_allOnes, Bool.and_comm]
    by_cases hn : n ≤ b
    · simp [hb, hn, show b - n < w by omega]
    · simp [hn]
  constructor
  · intro h
    refine Nat.lt_pow_two_of_testBit _ fun b hb => ?_
    rw [BitVec.testBit_toNat]
    by_cases hw : b < w
    · have hb0 := hbit b hw
      rwa [h, decide_eq_true hb, Bool.true_and, BitVec.ofNat_eq_ofNat, BitVec.getLsbD_zero, eq_comm] at hb0
    · exact BitVec.getLsbD_of_ge x b (Nat.le_of_not_lt hw)
  · intro h
    apply BitVec.eq_of_getLsbD_eq
    intro b hb
    rw [hbit b hb, BitVec.ofNat_eq_ofNat, BitVec.getLsbD_zero]
    by_cases hn : n ≤ b
    · have hlt : x.toNat < 2 ^ b := h.trans_le (Nat.pow_le_pow_right (by decide) hn)
      rw [← BitVec.testBit_toNat, Nat.testBit_lt_two_pow hlt, Bool.and_false]
    · rw [decide_eq_false hn, Bool.false_and]

/-- The forbidden-bits mask of a mode is bits 15 down to 13 - m. -/
theorem forbidden_mask_eq (m : Mode) :
    BitVec.ofNat 16 (2 ^ 16 - 2 ^ (13 - m.number)) = BitVec.allOnes 16 <<< (13 - m.number) := by
  cases m <;> decide

theorem mask_bound_eq_two_mul {m : Mode} (h : 1 ≤ m.number) : 2 ^ (13 - m.number) = 2 * m.unitCount := by
  have hlt := number_lt m
  rw [unitCount_eq_pow h, ← Nat.pow_succ', show 13 - m.number = (12 - m.number).succ by omega]

theorem unitCount_le_mask_bound (m : Mode) : m.unitCount ≤ 2 ^ (13 - m.number) := by
  by_cases h : 1 ≤ m.number
  · rw [mask_bound_eq_two_mul h]
    omega
  · rw [show m.number = 0 by omega]
    exact unitCount_le m

/-- Settles O35: the mask asks for 0 in bits 13 - m and up (`forbidden_mask_eq`, `and_high_mask_eq_zero_iff`), a bound that
is twice `unit_count` in every mode but 0. -/
theorem maskRuleIsWeaker : Obligations.MaskRuleIsWeaker := by
  refine ⟨fun m k => ?_, unitCount_le_mask_bound, fun _ => mask_bound_eq_two_mul⟩
  rw [forbidden_mask_eq]
  exact and_high_mask_eq_zero_iff k _

end Sys2Proof.Machine
end

section
/-! Properties of the index codec's commands run one after another (41_index_codec.md sections 7 and 8): ENCODE with DECODE and
VALIDATE, WRITE with READ, and the decomposition round trip. -/

namespace Sys2Proof.Machine

/-! ### ENCODE, then DECODE and VALIDATE -/

theorem namesUnit_packDesc {p : EncodeParams} {m : Mode} (hm : Mode.ofField p.mode = some m)
    (hk : p.offset.toNat < m.unitCount) : NamesUnit (packDesc p) m p.offset.toNat := by
  have ho := offset_lt_of_lt_unitCount hk
  exact ⟨descVersion_packDesc ho, descReserved_packDesc ho, (descMode_packDesc ho).symm ▸ hm, descOffset_packDesc_toNat ho,
    hk⟩

/-- DECODE of the descriptor ENCODE builds has version 0 and the parameter word's own fields (R61, R105). -/
theorem unpackDesc_packDesc {p : EncodeParams} (ho : p.offset.toNat < 2 ^ 16) :
    BitVec.extractLsb' 24 1 (unpackDesc (packDesc p)) = 0 ∧ BitVec.extractLsb' 20 4 (unpackDesc (packDesc p)) = p.mode ∧
      BitVec.extractLsb' 18 1 (unpackDesc (packDesc p)) = p.sign ∧
      BitVec.extractLsb' 17 1 (unpackDesc (packDesc p)) = p.csel ∧
      BitVec.extractLsb' 16 1 (unpackDesc (packDesc p)) = p.le ∧
      (BitVec.extractLsb' 0 16 (unpackDesc (packDesc p))).toNat = p.offset.toNat := by
  refine ⟨?_, ?_, ?_, ?_, ?_, ?_⟩
  · exact (extractLsb'_unpackDesc_version _).trans (descVersion_packDesc ho)
  · exact (extractLsb'_unpackDesc_mode _).trans (descMode_packDesc ho)
  · exact (extractLsb'_unpackDesc_low _ (by decide)).trans (descSign_packDesc ho)
  · exact (extractLsb'_unpackDesc_low _ (by decide)).trans (descCsel_packDesc ho)
  · exact (extractLsb'_unpackDesc_low _ (by decide)).trans (descEndian_packDesc ho)
  · exact (congrArg BitVec.toNat (extractLsb'_unpackDesc_low _ (by decide))).trans (descOffset_packDesc_toNat ho)

/-- The parameter word of a descriptor: its own mode, offset and flags. -/
def descParams (d : Desc) : EncodeParams := ⟨descSign d, descCsel d, descEndian d, descMode d, (descOffset d).setWidth 32⟩

theorem descParams_offset_toNat (d : Desc) : (descParams d).offset.toNat = (descOffset d).toNat :=
  BitVec.toNat_setWidth_of_le (by decide)

theorem descParams_packDesc {p : EncodeParams} (h : p.offset.toNat < 2 ^ 16) : descParams (packDesc p) = p := by
  have hoff : (descOffset (packDesc p)).setWidth 32 = p.offset :=
    BitVec.eq_of_toNat_eq ((descParams_offset_toNat _).trans (descOffset_packDesc_toNat h))
  rw [descParams, descSign_packDesc h, descCsel_packDesc h, descEndian_packDesc h, descMode_packDesc h, hoff]

section
variable {d : Desc} {m : Mode} {k : Nat} (h : NamesUnit d m k)
include h

/-- The parameter word of a valid descriptor is one ENCODE accepts. -/
theorem NamesUnit.descParams_legal :
    Mode.ofField (descParams d).mode = some m ∧ (descParams d).offset.toNat < m.unitCount := by
  obtain ⟨-, -, hm, rfl, hk⟩ := h
  exact ⟨hm, (descParams_offset_toNat d).trans_lt hk⟩

theorem NamesUnit.packDesc_descParams : packDesc (descParams d) = d := by
  obtain ⟨-, hlt⟩ := h.descParams_legal
  obtain ⟨hv, hr, -, -, -⟩ := h
  have ho := offset_lt_of_lt_unitCount hlt
  refine desc_ext ((descVersion_packDesc ho).trans hv.symm) (descMode_packDesc ho)
    ((descReserved_packDesc ho).trans hr.symm) (descSign_packDesc ho) (descCsel_packDesc ho) (descEndian_packDesc ho)
    (BitVec.eq_of_toNat_eq ?_)
  rw [descOffset_packDesc_toNat ho, descParams_offset_toNat]

end

section
variable (s : State) {p : EncodeParams} {m : Mode}

theorem exec_encode_endsScalar (hm : Mode.ofField p.mode = some m) (hk : p.offset.toNat < m.unitCount) :
    ∃ t, exec (.encode p) s = .next t ∧ EndsScalar s t (BitVec.setWidth 64 (packDesc p)) :=
  exec_endsScalar (exec_encode s p) (congrArg (Except.map _) (encodeDesc_ok hm hk))

/-- ENCODE accepts a parameter word or ends with InvalidArgument (R105). -/
theorem encodeDesc_cases (p : EncodeParams) : (∃ m, Mode.ofField p.mode = some m ∧ p.offset.toNat < m.unitCount) ∨
    encodeDesc p = .error .invalidArgument := by
  cases hm : Mode.ofField p.mode with
  | none => exact .inr (encodeDesc_of_reserved_mode ((ofField_eq_none _).mp hm))
  | some m =>
    rcases Nat.lt_or_ge p.offset.toNat m.unitCount with hk | hk
    · exact .inl ⟨m, rfl, hk⟩
    · exact .inr (encodeDesc_of_unitCount_le hm hk)

variable {s}

/-- An ENCODE that ended Ok with descriptor d was given d's own parameter word. -/
theorem eq_descParams_of_encode {t : State} {d : Desc} (ht : exec (.encode p) s = .next t)
    (he : EndsScalar s t (BitVec.setWidth 64 d)) : p = descParams d := by
  rcases encodeDesc_cases p with ⟨m, hm, hk⟩ | herr
  · obtain ⟨u, hu, heu⟩ := exec_encode_endsScalar s hm hk
    obtain rfl := Host.Outcome.next.inj (hu.symm.trans ht)
    have hwide : BitVec.setWidth 64 (packDesc p) = BitVec.setWidth 64 d := heu.result.symm.trans he.result
    have hd : packDesc p = d := by simpa using congrArg (BitVec.setWidth 32) hwide
    rw [← hd, descParams_packDesc (offset_lt_of_lt_unitCount hk)]
  · obtain ⟨u, hu, heu⟩ := exec_scalar_endsFailed (exec_encode s p) (congrArg (Except.map _) herr)
    obtain rfl := Host.Outcome.next.inj (hu.symm.trans ht)
    exact absurd (heu.status.symm.trans he.status) (code_ne_zero _)

end

/-- Settles O38: DECODE of `packDesc p` gives p's fields (`unpackDesc_packDesc`) and VALIDATE accepts it
(`namesUnit_packDesc`); a valid descriptor is the result of its own parameter word and of no other
(`NamesUnit.packDesc_descParams`, `eq_descParams_of_encode`). -/
theorem encodeThenDecodeAndValidate : Obligations.EncodeThenDecodeAndValidate := by
  refine ⟨fun s p m hm hk => ?_, fun s d m k hu => ?_⟩
  · obtain ⟨t, ht, het⟩ := exec_encode_endsScalar s hm hk
    obtain ⟨u, hu, heu⟩ := exec_endsScalar (exec_decode t (packDesc p)) rfl
    have hcheck := checkDesc_ok.mpr (namesUnit_packDesc hm hk)
    obtain ⟨w, hw, hew⟩ := exec_endsScalar (exec_validate u (packDesc p)) (congrArg (Except.map _) hcheck)
    have hfields := unpackDesc_packDesc (offset_lt_of_lt_unitCount hk)
    rw [← heu.result] at hfields
    obtain ⟨hversion, hmode, hsign, hcsel, hle, hoffset⟩ := hfields
    exact ⟨t, u, w, packDesc p, ht, het.result, hu, heu.status, hversion, hmode, hsign, hcsel, hle, hoffset, hw, hew.status⟩
  · obtain ⟨hm, hk⟩ := hu.descParams_legal
    have henc := exec_encode_endsScalar s hm hk
    rw [hu.packDesc_descParams] at henc
    exact ⟨descParams d, henc, fun p' t' => eq_descParams_of_encode⟩

/-! ### WRITE and READ -/

section
variable {m : Mode} {k v : Nat} {x y : Wide} (h : ReplacesUnit m k v x y)
include h

/-- A unit disjoint from the one replaced reads as before. -/
theorem ReplacesUnit.unitValue_disjoint {m' : Mode} {k' : Nat}
    (hd : m.unitBits * k + m.unitBits ≤ m'.unitBits * k' ∨ m'.unitBits * k' + m'.unitBits ≤ m.unitBits * k) :
    unitValue y m' k' = unitValue x m' k' := by
  apply Nat.eq_of_testBit_eq
  intro i
  rw [testBit_unitValue, testBit_unitValue]
  by_cases hi : i < m'.unitBits
  · rw [h.getLsbD_outside (by omega)]
  · rw [decide_eq_false hi, Bool.false_and, Bool.false_and]

/-- Replacing a unit by the value it holds changes nothing. -/
theorem ReplacesUnit.eq_of_unitValue (hv : v = unitValue x m k) : y = x := by
  apply BitVec.eq_of_getLsbD_eq
  intro b _
  rw [h]
  split
  · rename_i hb
    obtain ⟨hle, hlt⟩ := hb
    rw [hv, testBit_unitValue, Nat.add_sub_cancel' hle, decide_eq_true (by omega), Bool.true_and]
  · rfl

end

/-- Settles O46: the destination has one unit replaced (`exec_write_replacesUnit`), so a disjoint unit of it keeps its value;
no other register is written. -/
theorem disjointUnitsReadAsBefore : Obligations.DisjointUnitsReadAsBefore := by
  intro s t rd ra d v m k m' k' hu _ hdisj ht
  obtain ⟨u, x, hw, he, hx⟩ := exec_write_replacesUnit s rd ra v hu
  obtain rfl := Host.Outcome.next.inj (hw.symm.trans ht)
  rw [he.dest]
  exact hx.unitValue_disjoint hdisj

/-- READ of a valid descriptor gives the unit's value, in RESULT for modes 0 to 5 and in V[rd] for modes 6 to 11 (R108). -/
theorem exec_read_unitValue {d : Desc} {m : Mode} {k : Nat} (hu : NamesUnit d m k) (s : State) (rd ra : WReg) :
    ∃ t, exec (.read rd ra d) s = .next t ∧ t.status = 0 ∧
      (m.number ≤ 5 → t.result.toNat = unitValue (readWide s ra) m k) ∧
      (6 ≤ m.number → val t rd = unitValue (readWide s ra) m k) := by
  cases hs : m.isScalar with
  | true =>
    have hle := (isScalar_iff m).mp hs
    obtain ⟨t, ht, he⟩ := exec_read_endsScalar s rd ra hu hs
    refine ⟨t, ht, he.status, fun _ => ?_, fun hge => by omega⟩
    rw [he.result, readScalarUnit_toNat hs]
  | false =>
    have hge := (isScalar_eq_false_iff m).mp hs
    obtain ⟨t, ht, he⟩ := exec_read_endsWide s rd ra hu hs
    refine ⟨t, ht, he.status, fun hle => by omega, fun _ => ?_⟩
    rw [he.val_dest, readSubUnit_toNat hs]

/-- Settles O47: WRITE leaves the value masked to the unit in it (`ReplacesUnit.unitValue_eq`), and READ gives the unit's
value (`exec_read_unitValue`). -/
theorem readAfterWriteReturnsValue : Obligations.ReadAfterWriteReturnsValue := by
  intro s rd ra re d v m k hu
  obtain ⟨t, x, ht, he, hx⟩ := exec_write_replacesUnit s rd ra v hu
  obtain ⟨u, hr, hst, hscalar, hsub⟩ := exec_read_unitValue hu t re rd
  rw [he.dest, hx.unitValue_eq] at hscalar hsub
  refine ⟨t, u, ht, hr, he.status, hst, fun hm => ?_, fun hm => ?_⟩
  · rw [hscalar hm, if_pos hm]
  · rw [hsub hm, if_neg (by omega)]

/-- Settles O48: READ puts the unit's value in V[rx] and keeps the store, so WRITE replaces the unit by its own value
(`ReplacesUnit.eq_of_unitValue`). -/
theorem writeBackChangesNothing : Obligations.WriteBackChangesNothing := by
  intro s rx rs d m k hu hm hne
  have hs := (isScalar_eq_false_iff m).mpr hm
  obtain ⟨t, ht, het⟩ := exec_read_endsWide s rx rs hu hs
  obtain ⟨u, x, hw, heu, hx⟩ := exec_write_replacesUnit t rs rx 0 hu
  rw [if_neg (by omega), het.val_dest, readSubUnit_toNat hs, het.others rs hne.symm] at hx
  exact ⟨t, u, ht, hw, het.status, heu.status, heu.dest.trans (hx.eq_of_unitValue rfl)⟩

/-! ### The decomposition round trip -/

/-- The low n bits of y are those of x, and the others are 0. -/
def CopiedBelow (n : Nat) (x y : Wide) : Prop := ∀ b, y.getLsbD b = (decide (b < n) && x.getLsbD b)

theorem copiedBelow_zero (x : Wide) : CopiedBelow 0 x 0 := fun b => by simp

theorem CopiedBelow.eq {x y : Wide} (h : CopiedBelow 8192 x y) : y = x := by
  apply BitVec.eq_of_getLsbD_eq
  intro b hb
  rw [h, decide_eq_true hb, Bool.true_and]

/-- Writing unit k of x into a copy of the units below it gives a copy of the units up to it. -/
theorem CopiedBelow.replaceUnit {m : Mode} {k : Nat} {x y z : Wide} (h : CopiedBelow (m.unitBits * k) x y)
    (hz : ReplacesUnit m k (unitValue x m k) y z) : CopiedBelow (m.unitBits * (k + 1)) x z := by
  intro b
  rw [hz b, Nat.mul_succ]
  split
  · rename_i hb
    obtain ⟨hle, hlt⟩ := hb
    rw [testBit_unitValue, Nat.add_sub_cancel' hle, decide_eq_true (show b - m.unitBits * k < m.unitBits by omega),
      decide_eq_true hlt]
  · rw [h, decide_eq_decide.mpr (show b < m.unitBits * k ↔ b < m.unitBits * k + m.unitBits by omega)]

/-- What the round trip keeps from unit to unit: the last command ended Ok, the store is as it was, and the copy holds the
units below n of it. -/
structure Reassembled (s t : State) (m : Mode) (store copy : WReg) (n : Nat) : Prop where
  status : t.status = 0
  result : t.result = 0
  kept   : readWide t store = readWide s store
  copied : CopiedBelow (m.unitBits * n) (readWide s store) (readWide t copy)

/-- READ of unit n into the part and WRITE of it to the copy carry the round trip from n units to n + 1. -/
theorem Reassembled.next {s t : State} {m : Mode} {store part copy : WReg} {n : Nat} {d : Desc}
    (h : Reassembled s t m store copy n) (hm : 6 ≤ m.number) (hu : NamesUnit d m n) (hsp : store ≠ part)
    (hsc : store ≠ copy) (hpc : part ≠ copy) :
    ∃ u, runCommands [.read part store d, .write copy part d 0] t = .next u ∧ Reassembled s u m store copy (n + 1) := by
  have hs := (isScalar_eq_false_iff m).mpr hm
  obtain ⟨r, hr, her⟩ := exec_read_endsWide t part store hu hs
  obtain ⟨u, x, hw, heu, hx⟩ := exec_write_replacesUnit r copy part 0 hu
  rw [if_neg (by omega), her.val_dest, readSubUnit_toNat hs, h.kept, her.others copy hpc.symm] at hx
  refine ⟨u, ?_, heu.status, heu.result, ?_, ?_⟩
  · rw [runCommands_cons _ hr, runCommands_cons _ hw, runCommands]
  · rw [heu.others store hsc, her.others store hsp, h.kept]
  · rw [heu.dest]
    exact h.copied.replaceUnit hx

theorem reassembly_succ (m : Mode) (store part copy : WReg) (n : Nat) :
    reassembly m store part copy (n + 1) = reassembly m store part copy n ++
      [.read part store (descDefault (BitVec.ofNat 4 m.number) (BitVec.ofNat 32 n)),
        .write copy part (descDefault (BitVec.ofNat 4 m.number) (BitVec.ofNat 32 n)) 0] := rfl

/-- The round trip over the first n units, by induction on n. -/
theorem runCommands_reassembly (s : State) {m : Mode} {store part copy : WReg} (hm : 6 ≤ m.number)
    (hsp : store ≠ part) (hsc : store ≠ copy) (hpc : part ≠ copy) {n : Nat} (hn : n ≤ m.unitCount) :
    ∃ t, runCommands (reassembly m store part copy n) s = .next t ∧ Reassembled s t m store copy n := by
  induction n with
  | zero =>
    obtain ⟨t, ht, he⟩ := exec_endsWide (exec_init_zero s copy) rfl
    refine ⟨t, ?_, he.status, he.result, he.others store hsc, ?_⟩
    · exact runCommands_cons [] ht
    · rw [he.dest]
      exact copiedBelow_zero _
  | succ n ih =>
    obtain ⟨t, ht, hinv⟩ := ih (by omega)
    obtain ⟨u, hu, hinv'⟩ := hinv.next hm (namesUnit_descDefault hn) hsp hsc hpc
    exact ⟨u, by rw [reassembly_succ, runCommands_append _ ht, hu], hinv'⟩

/-- Settles O55: after all units the copy holds 8192 bits of the store (`runCommands_reassembly`), which is all of it. -/
theorem decompositionRoundTrip : Obligations.DecompositionRoundTrip := by
  intro s m store part copy hm hsp hsc hpc
  obtain ⟨t, ht, hst, hres, hstore, hcopied⟩ := runCommands_reassembly s hm hsp hsc hpc (le_refl m.unitCount)
  rw [Nat.mul_comm, unitCount_mul_unitBits] at hcopied
  exact ⟨t, ht, hst, hres, hcopied.eq, hstore⟩

end Sys2Proof.Machine
end
